-- ==== Sys2Proof/Word.lean ====
section
/-! DEFINITION. The word type and its arithmetic (00_scope.md R7, R15, R16; 41_alu.md R176). -/

namespace Sys2Proof

/-- A word: 16 bits, used for register contents, memory words, addresses and the program counter (R7, R15). -/
abbrev Word := BitVec 16

/-- An 8-bit character code or trap vector (10_state.md R52, 30_encoding.md R125). -/
abbrev Byte := BitVec 8

/-- `add16(a, b)` = (a + b) mod 65536 (R16). Every address and PC sum uses it. -/
def add16 (a b : Word) : Word := a + b

/-- `and16(a, b)`, the bitwise AND of two words (R16). -/
def and16 (a b : Word) : Word := a &&& b

/-- `not16(a)` = 65535 - a, the bitwise complement on 16 bits (R16). -/
def not16 (a : Word) : Word := ~~~a

end Sys2Proof
end

