-- ==== Sys2Proof/Syntax.lean ====
section
/-! DEFINITION. The instructions: one constructor per row of spec/opcode_table.json. Immediates and offsets
are the raw fields of the word; their sign extension is an operand form (Machine/Operands.lean). -/

namespace Sys2Proof

/-- The eight general registers (10_state.md R31). -/
inductive Reg
  | r0 | r1 | r2 | r3 | r4 | r5 | r6 | r7
  deriving DecidableEq, Repr

/-- The instructions of 30_encoding.md R113, R130, with the operands that the decoder extracts. -/
inductive Instr
  /-- BR: mask `nzp` (n is bit 2), `off9` (R117). -/
  | br (nzp : BitVec 3) (off9 : BitVec 9)
  /-- ADD, register form (R114). -/
  | addR (dr sr1 sr2 : Reg)
  /-- ADD, immediate form (R115). -/
  | addI (dr sr1 : Reg) (imm5 : BitVec 5)
  /-- LD (R121). -/
  | ld (dr : Reg) (off9 : BitVec 9)
  /-- ST (R121). -/
  | st (sr : Reg) (off9 : BitVec 9)
  /-- JSR (R119). -/
  | jsr (off11 : BitVec 11)
  /-- JSRR (R120). -/
  | jsrr (baseR : Reg)
  /-- AND, register form (R114). -/
  | andR (dr sr1 sr2 : Reg)
  /-- AND, immediate form (R115). -/
  | andI (dr sr1 : Reg) (imm5 : BitVec 5)
  /-- LDR (R122). -/
  | ldr (dr baseR : Reg) (off6 : BitVec 6)
  /-- STR (R122). -/
  | str (sr baseR : Reg) (off6 : BitVec 6)
  /-- RTI (R124). -/
  | rti
  /-- NOT (R116). -/
  | not (dr sr1 : Reg)
  /-- LDI (R121). -/
  | ldi (dr : Reg) (off9 : BitVec 9)
  /-- STI (R121). -/
  | sti (sr : Reg) (off9 : BitVec 9)
  /-- JMP; RET is JMP R7 (R118, R133). -/
  | jmp (baseR : Reg)
  /-- RES (R124). -/
  | res
  /-- LEA (R121). -/
  | lea (dr : Reg) (off9 : BitVec 9)
  /-- TRAP x20 (R123, R131). -/
  | getc
  /-- TRAP x21 (R123, R131). -/
  | out
  /-- TRAP x22 (R123, R131). -/
  | puts
  /-- TRAP x23, the table's IN (R123, R131). -/
  | inChar
  /-- TRAP x24 (R123, R131). -/
  | putsp
  /-- TRAP x25 (R123, R131). -/
  | halt
  /-- TRAP with any other vector (the table's generic row; R130's `TRAP_UNDEF`). -/
  | trap (vect : BitVec 8)
  deriving DecidableEq, Repr

end Sys2Proof
end

