-- ==== Sys2Proof/WellFormed.lean ====
section
/-! DEFINITION. Well-formed instructions: the terms that some word encodes as themselves. The widths of the
fields are in their types; what is left is that the generic TRAP row stands only for the vectors that the six
named rows do not take (spec/opcode_table.json, note of the TRAP row; 44_trap.md R249). -/

namespace Sys2Proof

/-- The vectors with a sub-operation of their own, 0x20 to 0x25 (30_encoding.md R131). -/
def definedVector (vect : BitVec 8) : Bool :=
  decide (0x20 ≤ vect.toNat) && decide (vect.toNat ≤ 0x25)

/-- Every operand of every form is admissible, but for the generic TRAP, whose vector is an undefined one. -/
def Instr.wellFormed : Instr → Bool
  | .br _ _ => true
  | .addR _ _ _ => true
  | .addI _ _ _ => true
  | .ld _ _ => true
  | .st _ _ => true
  | .jsr _ => true
  | .jsrr _ => true
  | .andR _ _ _ => true
  | .andI _ _ _ => true
  | .ldr _ _ _ => true
  | .str _ _ _ => true
  | .rti => true
  | .not _ _ => true
  | .ldi _ _ => true
  | .sti _ _ => true
  | .jmp _ => true
  | .res => true
  | .lea _ _ => true
  | .getc => true
  | .out => true
  | .puts => true
  | .inChar => true
  | .putsp => true
  | .halt => true
  | .trap vect => !definedVector vect

end Sys2Proof
end

