-- ==== Sys2Proof/Decode.lean ====
section
/-! DEFINITION. The decoder and the encoder, both from one opcode table, one register table and one trap
table (30_encoding.md R112 to R131). Decoding is total: every word is exactly one instruction (R111), so
nothing is rejected here; the two illegal opcodes decode to RTI and RES, which fault when executed (R127). -/

namespace Sys2Proof

/-- The sixteen opcodes by name. -/
inductive Opcode
  | br | add | ld | st | jsr | and | ldr | str | rti | not | ldi | sti | jmp | res | lea | trap
  deriving DecidableEq, Repr

/-- The opcode map of R113 as one table, in the order of the opcode numbers 0 to 15
(PRESUMED, the spec's decision D1; assumption log 6). -/
def opcodeTable : List Opcode :=
  [.br, .add, .ld, .st, .jsr, .and, .ldr, .str, .rti, .not, .ldi, .sti, .jmp, .res, .lea, .trap]

/-- The opcode that a 4-bit number selects. -/
def opcodeOf (n : BitVec 4) : Opcode := opcodeTable.getD n.toNat .res

/-- The 4-bit number of an opcode. -/
def opcodeNumber (op : Opcode) : BitVec 4 := BitVec.ofNat 4 (opcodeTable.idxOf op)

/-- The registers in the order of their 3-bit indices (R125, last sentence). -/
def registerTable : List Reg := [.r0, .r1, .r2, .r3, .r4, .r5, .r6, .r7]

/-- The register that a 3-bit index selects. -/
def regOf (n : BitVec 3) : Reg := registerTable.getD n.toNat .r0

/-- The 3-bit index of a register. -/
def regIndex (r : Reg) : BitVec 3 := BitVec.ofNat 3 (registerTable.idxOf r)

/-- The trap vectors with a sub-operation (R131). -/
def trapTable : List (BitVec 8 × Instr) :=
  [(0x20#8, .getc), (0x21#8, .out), (0x22#8, .puts), (0x23#8, .inChar), (0x24#8, .putsp), (0x25#8, .halt)]

/-- `instr[7:0]` to the sub-operation; a vector outside the table is the generic TRAP (R130). -/
def trapOf (vect : BitVec 8) : Instr := (trapTable.lookup vect).getD (.trap vect)

/-! The fields of R112. -/

/-- `instr[15:12]`. -/
def fieldOpcode (w : Word) : BitVec 4 := w.extractLsb' 12 4
/-- `instr[11:9]`, the destination or the stored register, or the condition mask. -/
def fieldHigh3 (w : Word) : BitVec 3 := w.extractLsb' 9 3
/-- `instr[8:6]`, the first source or the base register. -/
def fieldMid3 (w : Word) : BitVec 3 := w.extractLsb' 6 3
/-- `instr[2:0]`, the second source register. -/
def fieldLow3 (w : Word) : BitVec 3 := w.extractLsb' 0 3
/-- `instr[5]`, the immediate flag of ADD and AND. -/
def fieldImmFlag (w : Word) : BitVec 1 := w.extractLsb' 5 1
/-- `instr[11]`, the JSR flag. -/
def fieldJsrFlag (w : Word) : BitVec 1 := w.extractLsb' 11 1
/-- `instr[4:0]`. -/
def fieldImm5 (w : Word) : BitVec 5 := w.extractLsb' 0 5
/-- `instr[5:0]`. -/
def fieldOff6 (w : Word) : BitVec 6 := w.extractLsb' 0 6
/-- `instr[7:0]`. -/
def fieldVect (w : Word) : BitVec 8 := w.extractLsb' 0 8
/-- `instr[8:0]`. -/
def fieldOff9 (w : Word) : BitVec 9 := w.extractLsb' 0 9
/-- `instr[10:0]`. -/
def fieldOff11 (w : Word) : BitVec 11 := w.extractLsb' 0 11

/-- The register named by `instr[11:9]`. -/
def regHigh (w : Word) : Reg := regOf (fieldHigh3 w)
/-- The register named by `instr[8:6]`. -/
def regMid (w : Word) : Reg := regOf (fieldMid3 w)
/-- The register named by `instr[2:0]`. -/
def regLow (w : Word) : Reg := regOf (fieldLow3 w)

/-- `Decode(instr)` of R130. Bits that no field names are ignored (R126; assumption log 10). -/
def decode (w : Word) : Instr :=
  match opcodeOf (fieldOpcode w) with
  | .br => .br (fieldHigh3 w) (fieldOff9 w)
  | .add =>
    if fieldImmFlag w = 0#1 then .addR (regHigh w) (regMid w) (regLow w)
    else .addI (regHigh w) (regMid w) (fieldImm5 w)
  | .ld => .ld (regHigh w) (fieldOff9 w)
  | .st => .st (regHigh w) (fieldOff9 w)
  | .jsr => if fieldJsrFlag w = 1#1 then .jsr (fieldOff11 w) else .jsrr (regMid w)
  | .and =>
    if fieldImmFlag w = 0#1 then .andR (regHigh w) (regMid w) (regLow w)
    else .andI (regHigh w) (regMid w) (fieldImm5 w)
  | .ldr => .ldr (regHigh w) (regMid w) (fieldOff6 w)
  | .str => .str (regHigh w) (regMid w) (fieldOff6 w)
  | .rti => .rti
  | .not => .not (regHigh w) (regMid w)
  | .ldi => .ldi (regHigh w) (fieldOff9 w)
  | .sti => .sti (regHigh w) (fieldOff9 w)
  | .jmp => .jmp (regMid w)
  | .res => .res
  | .lea => .lea (regHigh w) (fieldOff9 w)
  | .trap => trapOf (fieldVect w)

/-! The formats of R114 to R124, written by the encoder with the unused bits as an assembler writes them
(R116, R123, R132; they are ignored on decoding). -/

/-- Format ALU-R (R114). -/
def wordAluR (op : Opcode) (dr sr1 sr2 : Reg) : Word :=
  opcodeNumber op ++ regIndex dr ++ regIndex sr1 ++ 0b000#3 ++ regIndex sr2
/-- Format ALU-I (R115). -/
def wordAluI (op : Opcode) (dr sr1 : Reg) (imm5 : BitVec 5) : Word :=
  opcodeNumber op ++ regIndex dr ++ regIndex sr1 ++ 1#1 ++ imm5
/-- Formats NOT, LDR, STR and JMP: a three-bit field, a register and six low bits (R116, R118, R122). -/
def wordBase (op : Opcode) (high : BitVec 3) (mid : Reg) (low : BitVec 6) : Word :=
  opcodeNumber op ++ high ++ regIndex mid ++ low
/-- Formats BR and PC-REL: a three-bit field and `off9` (R117, R121). -/
def wordOff9 (op : Opcode) (high : BitVec 3) (off9 : BitVec 9) : Word :=
  opcodeNumber op ++ high ++ off9
/-- Formats JSR and JSRR: the flag and eleven low bits (R119, R120). -/
def wordJsr (flag : BitVec 1) (low : BitVec 11) : Word := opcodeNumber .jsr ++ flag ++ low
/-- Format TRAP (R123). -/
def wordTrap (vect : BitVec 8) : Word := opcodeNumber .trap ++ 0#4 ++ vect
/-- Format NONE (R124). -/
def wordNone (op : Opcode) : Word := opcodeNumber op ++ 0#12

/-- The word of an instruction (R114 to R124, R132). -/
def encode : Instr → Word
  | .br nzp off9 => wordOff9 .br nzp off9
  | .addR dr sr1 sr2 => wordAluR .add dr sr1 sr2
  | .addI dr sr1 imm5 => wordAluI .add dr sr1 imm5
  | .ld dr off9 => wordOff9 .ld (regIndex dr) off9
  | .st sr off9 => wordOff9 .st (regIndex sr) off9
  | .jsr off11 => wordJsr 1#1 off11
  | .jsrr baseR => wordJsr 0#1 (0#2 ++ regIndex baseR ++ 0#6)
  | .andR dr sr1 sr2 => wordAluR .and dr sr1 sr2
  | .andI dr sr1 imm5 => wordAluI .and dr sr1 imm5
  | .ldr dr baseR off6 => wordBase .ldr (regIndex dr) baseR off6
  | .str sr baseR off6 => wordBase .str (regIndex sr) baseR off6
  | .rti => wordNone .rti
  | .not dr sr1 => wordBase .not (regIndex dr) sr1 0b111111#6
  | .ldi dr off9 => wordOff9 .ldi (regIndex dr) off9
  | .sti sr off9 => wordOff9 .sti (regIndex sr) off9
  | .jmp baseR => wordBase .jmp 0#3 baseR 0#6
  | .res => wordNone .res
  | .lea dr off9 => wordOff9 .lea (regIndex dr) off9
  | .getc => wordTrap 0x20#8
  | .out => wordTrap 0x21#8
  | .puts => wordTrap 0x22#8
  | .inChar => wordTrap 0x23#8
  | .putsp => wordTrap 0x24#8
  | .halt => wordTrap 0x25#8
  | .trap vect => wordTrap vect

/-- The bits of an instruction's word that its format names: the opcode, the variant bits and the operand
fields. The other bits are the `u` positions of R114 to R124, which the hardware ignores (R126). -/
def usedBits : Instr → Word
  | .br _ _ => 0xFFFF#16
  | .addR _ _ _ => 0xFFE7#16
  | .addI _ _ _ => 0xFFFF#16
  | .ld _ _ => 0xFFFF#16
  | .st _ _ => 0xFFFF#16
  | .jsr _ => 0xFFFF#16
  | .jsrr _ => 0xF9C0#16
  | .andR _ _ _ => 0xFFE7#16
  | .andI _ _ _ => 0xFFFF#16
  | .ldr _ _ _ => 0xFFFF#16
  | .str _ _ _ => 0xFFFF#16
  | .rti => 0xF000#16
  | .not _ _ => 0xFFC0#16
  | .ldi _ _ => 0xFFFF#16
  | .sti _ _ => 0xFFFF#16
  | .jmp _ => 0xF1C0#16
  | .res => 0xF000#16
  | .lea _ _ => 0xFFFF#16
  | .getc => 0xF0FF#16
  | .out => 0xF0FF#16
  | .puts => 0xF0FF#16
  | .inChar => 0xF0FF#16
  | .putsp => 0xF0FF#16
  | .halt => 0xF0FF#16
  | .trap _ => 0xF0FF#16

/-- The host's question: the instruction of a table word given as a number. Every instruction is one 16-bit
word (R110), so a longer one is none. -/
def decodeTableWord (nbits w : Nat) : Option Instr :=
  if nbits ≤ 16 then some (decode (BitVec.ofNat 16 (w % 2 ^ nbits))) else none

end Sys2Proof
end

