-- ==== Sys2Proof/Config.lean ====
section
/-! DEFINITION. The parameters of a machine and of a launch (00_scope.md R8 to R12). -/

namespace Sys2Proof

/-- The three named configuration constants of R9 and R10. A state carries one of these as plain data
(assumption log 2), so that a statement over all states is a statement about every pair of keyboard
addresses and every HALT text. -/
structure Config where
  /-- `KBSR_ADDR`, the keyboard-status address (R9). -/
  kbsrAddr : Word
  /-- `KBDR_ADDR`, the keyboard-data address (R9). -/
  kbdrAddr : Word
  /-- `HALT_TEXT`, the character codes that HALT emits (R10). -/
  haltText : List Word
  deriving DecidableEq, Repr

/-- R9: the two keyboard addresses are distinct. -/
def Config.wf (c : Config) : Bool := c.kbsrAddr != c.kbdrAddr

/-- `IMAGE`, what the loader supplies before a run (R12). -/
structure Image where
  startAddress : Word
  words : List Word
  deriving DecidableEq, Repr

/-- `PC_START` (R8): not a parameter. -/
def pcStart : Word := 0x3000#16

/-- The number of memory words (R7). -/
def memoryWords : Nat := 65536

/-- 70_reset_and_hazards.md R334: an image is admissible when it does not run past address 0xFFFF. -/
def Image.admissible (img : Image) : Bool :=
  decide (img.startAddress.toNat + img.words.length ≤ memoryWords)

end Sys2Proof
end

