-- ==== Sys2Proof/Machine/Standard.lean ====
section
/-! DEFINITION. The default values of the configuration constants, each from the spec's own decision. -/

namespace Sys2Proof.Machine

/-- `KBSR_ADDR`'s value in this spec (00_scope.md R9; PRESUMED, decision D3; assumption log 8). -/
def kbsrDefault : Word := 0xFE00#16

/-- `KBDR_ADDR`'s value in this spec (00_scope.md R9; PRESUMED, decision D3; assumption log 8). -/
def kbdrDefault : Word := 0xFE02#16

/-- `HALT_TEXT`'s default, the text HALT and a line feed (00_scope.md R10; PRESUMED, decision D18; assumption log 21). -/
def haltTextDefault : List Word := [0x48#16, 0x41#16, 0x4C#16, 0x54#16, 0x0A#16]

/-- The configuration that the spec's test vectors use. -/
def standardConfig : Config :=
  { kbsrAddr := kbsrDefault, kbdrAddr := kbdrDefault, haltText := haltTextDefault }

end Sys2Proof.Machine
end

