-- ==== Sys2Proof/Machine/State.lean ====
section
/-! DEFINITION. The machine's state as plain data (10_state.md R30), the reasons a step can stop, and reset. -/

namespace Sys2Proof.Machine

/-- The register file, eight 16-bit registers (10_state.md R31). -/
structure Regs where
  r0 : Word
  r1 : Word
  r2 : Word
  r3 : Word
  r4 : Word
  r5 : Word
  r6 : Word
  r7 : Word
  deriving DecidableEq, Repr

/-- One listed memory word: its word address and its content. The addressable unit is the word and there is
no byte access (20_memory.md R70, R73), so a cell holds a word (assumption log 1). -/
abbrev Cell := Nat × Word

/-- The memory array: the listed words, addresses strictly rising, none equal to `unlistedWord`. -/
abbrev Memory := List Cell

/-- What an unlisted address reads as: memory is zero-initialised (70_reset_and_hazards.md R331). -/
def unlistedWord : Word := 0x0000#16

/-- `RUN` (10_state.md R55). -/
inductive RunState
  | running
  | halted
  | faulted
  deriving DecidableEq, Repr

/-- `CAUSE` (10_state.md R56). -/
inductive Cause
  /-- `None`: the run state is not FAULTED. -/
  | noFault
  /-- `DecodeFault(op)`, raised by RTI and RES (60_exceptions.md R291). -/
  | decodeFault (op : BitVec 4)
  /-- `InputExhausted(vect)`, raised by GETC and IN (60_exceptions.md R292). -/
  | inputExhausted (vect : BitVec 8)
  deriving DecidableEq, Repr

/-- The complete state of 10_state.md R30, and the parameters of the run that the step depends on and never
changes (40_instruction_cycle.md R156; assumption log 2). -/
structure State where
  /-- `R[0]` to `R[7]` (R31). -/
  regs : Regs
  /-- `PC`, a word address (R34). -/
  pc : Word
  /-- `COND`: bit 2 NEG, bit 1 ZRO, bit 0 POS (R40, R41). -/
  cond : BitVec 3
  /-- `MEM`, the two keyboard words among it (R47, R48, R50). -/
  mem : Memory
  /-- `INPOS`, how many characters of INPUT are consumed (R51). -/
  inpos : Nat
  /-- `OUT`, everything emitted, oldest first (R53, R54). -/
  out : List Word
  /-- `RUN` (R55). -/
  run : RunState
  /-- `CAUSE` (R56). -/
  cause : Cause
  /-- The parameter `INPUT` (00_scope.md R11). No step changes it. -/
  input : List Byte
  /-- The parameters `KBSR_ADDR`, `KBDR_ADDR` and `HALT_TEXT` (00_scope.md R9, R10). No step changes them. -/
  cfg : Config
  deriving DecidableEq, Repr

/-- Why a step stops without a next state. The two faults of the hardware are NOT here: their effect is given
by the spec (RUN and CAUSE are written), so they are next states (assumption log 27). -/
inductive Fault
  /-- Raised by PUTS and PUTSP when the string walk never meets a zero word: the spec's hang, "the step never
  completes" (44_trap.md R248, 70_reset_and_hazards.md R345). Safe: the hang has no next state. No state
  reaches it while INPUT is finite (assumption log 24). -/
  | stringWalkHangs
  deriving DecidableEq, Repr

/-- Why the model declines. -/
inductive Refusal
  /-- Raised by an arm of exec for an instruction without a meaning; no arm does. Safe. -/
  | notModelled (mnemonic : String)
  /-- Raised by `launch` when the image would run past address 0xFFFF (70_reset_and_hazards.md R334). Safe. -/
  | imagePastEnd
  /-- Raised by `launch` when an input code is above 255 (10_state.md R52). Safe. -/
  | inputCodeTooWide
  /-- Raised by `launch` when the two keyboard addresses are equal (00_scope.md R9). Safe. -/
  | keyboardAddressesEqual
  deriving DecidableEq, Repr

/-- The machine after reset with an empty image (10_state.md R59; 70_reset_and_hazards.md R331 to R336).
R0 to R7 and COND are the spec's decisions D6 and D7 (DESIGN CHOICE, assumption log 3 and 4); INPUT is the
empty sequence and the configuration the standard one (assumption log 2, 8, 21). -/
def State.reset : State :=
  { regs := ⟨0#16, 0#16, 0#16, 0#16, 0#16, 0#16, 0#16, 0#16⟩
    pc := pcStart
    cond := 0b000#3
    mem := []
    inpos := 0
    out := []
    run := .running
    cause := .noFault
    input := []
    cfg := standardConfig }

end Sys2Proof.Machine
end

