-- ==== Sys2Proof/Machine/Operands.lean ====
section
/-! DEFINITION. Operand forms and effective addresses (00_scope.md R17, R18; 30_encoding.md R125;
43_load_store.md R219), and the halves of a word (20_memory.md R71). -/

namespace Sys2Proof.Machine

/-- `sext_5` (R17): imm5 of ADD and AND. -/
def sext5 (v : BitVec 5) : Word := v.signExtend 16

/-- `sext_6` (R17): offset6 of LDR and STR. -/
def sext6 (v : BitVec 6) : Word := v.signExtend 16

/-- `sext_9` (R17): PCoffset9. -/
def sext9 (v : BitVec 9) : Word := v.signExtend 16

/-- `sext_11` (R17): PCoffset11. -/
def sext11 (v : BitVec 11) : Word := v.signExtend 16

/-- `zext_8` (R18): character codes and the bytes of a packed word. -/
def zext8 (v : Byte) : Word := v.setWidth 16

/-- `w[7:0]` (20_memory.md R71). -/
def lowByte (w : Word) : Byte := w.extractLsb' 0 8

/-- `w[15:8]` (20_memory.md R71). -/
def highByte (w : Word) : Byte := w.extractLsb' 8 8

/-- Reading a register out of the file (10_state.md R31: none is hard-wired). -/
def Regs.get (f : Regs) : Reg → Word
  | .r0 => f.r0
  | .r1 => f.r1
  | .r2 => f.r2
  | .r3 => f.r3
  | .r4 => f.r4
  | .r5 => f.r5
  | .r6 => f.r6
  | .r7 => f.r7

/-- Writing all 16 bits of a register of the file (R31). -/
def Regs.set (f : Regs) (r : Reg) (v : Word) : Regs :=
  match r with
  | .r0 => { f with r0 := v }
  | .r1 => { f with r1 := v }
  | .r2 => { f with r2 := v }
  | .r3 => { f with r3 := v }
  | .r4 => { f with r4 := v }
  | .r5 => { f with r5 := v }
  | .r6 => { f with r6 := v }
  | .r7 => { f with r7 := v }

/-- `R[i]` (00_scope.md R19). -/
def State.reg (s : State) (r : Reg) : Word := s.regs.get r

/-- PC-relative address, from the already-incremented PC (43_load_store.md R219). -/
def pcRelative (s : State) (off9 : BitVec 9) : Word := add16 s.pc (sext9 off9)

/-- Base plus offset address (43_load_store.md R219). -/
def baseOffset (s : State) (baseR : Reg) (off6 : BitVec 6) : Word := add16 (s.reg baseR) (sext6 off6)

end Sys2Proof.Machine
end

