-- ==== Sys2Proof/Machine/Ops.lean ====
section
/-! DEFINITION. The named operations over registers, memory, input and output: the primitives of
00_scope.md R19 to R23 and 20_memory.md R74, R76, the fetch, and taking a fault. There is no return from a
fault: a fault is terminal (60_exceptions.md R299). -/

namespace Sys2Proof.Machine

/-! Registers and plain fields. -/

/-- `R[i] <- v` (00_scope.md R19). -/
def State.setReg (s : State) (r : Reg) (v : Word) : State := { s with regs := s.regs.set r v }

/-- `PC <- v` (00_scope.md R19, R24). -/
def State.setPc (s : State) (v : Word) : State := { s with pc := v }

/-- `COND <- v` (00_scope.md R19). -/
def State.setCond (s : State) (v : BitVec 3) : State := { s with cond := v }

/-- `RUN <- v` (10_state.md R55). -/
def State.setRun (s : State) (v : RunState) : State := { s with run := v }

/-- `INPOS <- INPOS + 1` (10_state.md R51). -/
def State.advance (s : State) : State := { s with inpos := s.inpos + 1 }

/-- `Emit(codes)` (00_scope.md R22). -/
def State.emit (s : State) (codes : List Word) : State := { s with out := s.out ++ codes }

/-- `raise F(info)` (00_scope.md R23; 60_exceptions.md R297): taking a fault, for both kinds. -/
def State.raise (s : State) (c : Cause) : State := { s with run := .faulted, cause := c }

/-! Plain memory. -/

/-- The content of one word of the list. -/
def Memory.get : Memory → Nat → Word
  | [], _ => unlistedWord
  | (b, w) :: rest, a => if a = b then w else Memory.get rest a

/-- A store into the list that keeps the canonical form: a word equal to `unlistedWord` is not listed. -/
def Memory.put : Memory → Nat → Word → Memory
  | [], a, v => if v = unlistedWord then [] else [(a, v)]
  | (b, w) :: rest, a, v =>
    if a < b then (if v = unlistedWord then (b, w) :: rest else (a, v) :: (b, w) :: rest)
    else if a = b then (if v = unlistedWord then rest else (a, v) :: rest)
    else (b, w) :: Memory.put rest a v

/-- The canonical form from address `lo` on: rising addresses below 65536, no word equal to `unlistedWord`. -/
def Memory.wfFrom : Nat → Memory → Bool
  | _, [] => true
  | lo, (a, v) :: rest =>
    decide (lo ≤ a) && decide (a < memoryWords) && (v != unlistedWord) && Memory.wfFrom (a + 1) rest

/-- The canonical form of the memory list. -/
def Memory.wf (m : Memory) : Bool := Memory.wfFrom 0 m

/-- `MEM[a]`, read with no device side effect (00_scope.md R19). -/
def State.peek (s : State) (a : Word) : Word := Memory.get s.mem a.toNat

/-- `MEM[a] <- v`, written with no device side effect (00_scope.md R19). -/
def State.poke (s : State) (a v : Word) : State := { s with mem := Memory.put s.mem a.toNat v }

/-! Input. -/

/-- `InAvail()` (00_scope.md R22). -/
def State.inAvail (s : State) : Bool := decide (s.inpos < s.input.length)

/-- `InNext()` (00_scope.md R22): the next character and the state with the cursor advanced; none when the
input is exhausted. -/
def State.inNext (s : State) : Option (Byte × State) :=
  match s.input[s.inpos]? with
  | some c => some (c, s.advance)
  | none => none

/-! Device-aware access. -/

/-- The READY status word, bit 15 set and all others clear (20_memory.md R74; DEDUCED, decision D9; log 12). -/
def kbsrReady : Word := 0x8000#16

/-- The not-ready status word (20_memory.md R74). -/
def kbsrNotReady : Word := 0x0000#16

/-- The side effect of a status read (20_memory.md R74): a character left is consumed and delivered, else the
status becomes not-ready and nothing else changes. -/
def State.pollKeyboard (s : State) : State :=
  match s.inNext with
  | some (c, s1) => (s1.poke s.cfg.kbsrAddr kbsrReady).poke s.cfg.kbdrAddr (zext8 c)
  | none => s.poke s.cfg.kbsrAddr kbsrNotReady

/-- The state after `MemRead(a, 16)` (20_memory.md R74). -/
def State.afterRead (s : State) (a : Word) : State :=
  if a = s.cfg.kbsrAddr then s.pollKeyboard else s

/-- The word that `MemRead(a, 16)` returns, read after the side effect (20_memory.md R74). -/
def State.readWord (s : State) (a : Word) : Word := (s.afterRead a).peek a

/-- `MemWrite(a, 16, v)`: a plain store at every address (20_memory.md R76). -/
def State.memWrite (s : State) (a v : Word) : State := s.poke a v

/-! The fetch. -/

/-- `instr <- MemRead(PC, 16)` (40_instruction_cycle.md R151). -/
def State.fetchWord (s : State) : Word := s.readWord s.pc

/-- The state when the instruction executes: after the fetch's read and `PC <- add16(PC, 1)`
(40_instruction_cycle.md R151, R152). -/
def State.afterFetch (s : State) : State := (s.afterRead s.pc).setPc (add16 s.pc 1#16)

/-! The string walk of PUTS and PUTSP. -/

/-- The walk of 44_trap.md R244 and R246 with at most `fuel` reads: the non-zero words read and the state
after the read of the zero word; none when no zero word is met. -/
def stringWalk : Nat → Word → State → Option (List Word × State)
  | 0, _, _ => none
  | fuel + 1, a, s =>
    if s.readWord a = 0x0000#16 then some ([], s.afterRead a)
    else
      match stringWalk fuel (add16 a 1#16) (s.afterRead a) with
      | some (ws, t) => some (s.readWord a :: ws, t)
      | none => none

/-- Enough reads for any walk (DEDUCED, assumption log 24): every lap of 65536 reads reads the status word
once, which consumes a character or, when none is left, reads zero and ends the walk (44_trap.md R248(b)). -/
def State.walkFuel (s : State) : Nat := memoryWords * (s.input.length - s.inpos + 1)

/-- The characters that PUTSP emits for one word: the low byte always, the high byte when it is not zero
(44_trap.md R246). -/
def unpackWord (w : Word) : List Word :=
  zext8 (lowByte w) :: (if highByte w = 0x00#8 then [] else [zext8 (highByte w)])

end Sys2Proof.Machine
end

