-- ==== Sys2Proof/Machine/Flags.lean ====
section
/-! DEFINITION. The condition register (10_state.md R41, R42) and the branch test (42_control.md R190). -/

namespace Sys2Proof.Machine

/-- NEG (R41; PRESUMED bit, decision D2; assumption log 7). -/
def condNeg : BitVec 3 := 0b100#3

/-- ZRO (R41; PRESUMED bit, decision D2; assumption log 7). -/
def condZro : BitVec 3 := 0b010#3

/-- POS (R41; PRESUMED bit, decision D2; assumption log 7). -/
def condPos : BitVec 3 := 0b001#3

/-- COND for a value (R42). -/
def condOf (v : Word) : BitVec 3 :=
  if v = 0x0000#16 then condZro else if v[15] then condNeg else condPos

/-- `SetCC(i)` (R42). -/
def State.setCC (s : State) (r : Reg) : State := s.setCond (condOf (s.reg r))

/-- `R[DR] <- v` and then `SetCC(DR)`: how each of the seven flag-writing instructions ends (R43). -/
def State.writeResult (s : State) (dr : Reg) (v : Word) : State := (s.setReg dr v).setCC dr

/-- `and3(nzp, COND) != 0` (42_control.md R190). -/
def branchTaken (nzp cond : BitVec 3) : Bool := (nzp &&& cond) != 0b000#3

end Sys2Proof.Machine
end

