-- ==== Sys2Proof/Machine/Alu.lean ====
section
/-! DEFINITION. ADD, AND and NOT (41_alu.md). -/

namespace Sys2Proof.Machine

/-- ADD, register form (41_alu.md R171). -/
def execAddR (dr sr1 sr2 : Reg) (s : State) : Host.Outcome State Fault Refusal :=
  .next (s.writeResult dr (add16 (s.reg sr1) (s.reg sr2)))

/-- ADD, immediate form (41_alu.md R172). -/
def execAddI (dr sr1 : Reg) (imm5 : BitVec 5) (s : State) : Host.Outcome State Fault Refusal :=
  .next (s.writeResult dr (add16 (s.reg sr1) (sext5 imm5)))

/-- AND, register form (41_alu.md R173). -/
def execAndR (dr sr1 sr2 : Reg) (s : State) : Host.Outcome State Fault Refusal :=
  .next (s.writeResult dr (and16 (s.reg sr1) (s.reg sr2)))

/-- AND, immediate form (41_alu.md R174). -/
def execAndI (dr sr1 : Reg) (imm5 : BitVec 5) (s : State) : Host.Outcome State Fault Refusal :=
  .next (s.writeResult dr (and16 (s.reg sr1) (sext5 imm5)))

/-- NOT (41_alu.md R175). -/
def execNot (dr sr1 : Reg) (s : State) : Host.Outcome State Fault Refusal :=
  .next (s.writeResult dr (not16 (s.reg sr1)))

end Sys2Proof.Machine
end

