-- ==== Sys2Proof/Machine/Control.lean ====
section
/-! DEFINITION. BR, JMP, JSR and JSRR (42_control.md). `s.pc` is the already-incremented PC (00_scope.md R24). -/

namespace Sys2Proof.Machine

/-- BR (42_control.md R190, R191). -/
def execBr (nzp : BitVec 3) (off9 : BitVec 9) (s : State) : Host.Outcome State Fault Refusal :=
  .next (if branchTaken nzp s.cond then s.setPc (pcRelative s off9) else s)

/-- JMP, and RET when the register is R7 (42_control.md R192). -/
def execJmp (baseR : Reg) (s : State) : Host.Outcome State Fault Refusal :=
  .next (s.setPc (s.reg baseR))

/-- `R[7] <- PC`, the link of JSR and JSRR (10_state.md R32). -/
def State.link (s : State) : State := s.setReg .r7 s.pc

/-- JSR (42_control.md R193). -/
def execJsr (off11 : BitVec 11) (s : State) : Host.Outcome State Fault Refusal :=
  .next (s.link.setPc (add16 s.pc (sext11 off11)))

/-- JSRR: the link is written first and the base register read after it (42_control.md R194). -/
def execJsrr (baseR : Reg) (s : State) : Host.Outcome State Fault Refusal :=
  .next (s.link.setPc (s.link.reg baseR))

end Sys2Proof.Machine
end

