-- ==== Sys2Proof/Machine/LoadStore.lean ====
section
/-! DEFINITION. LD, LDI, LDR, LEA, ST, STI and STR (43_load_store.md). Every read is device-aware, every write
a plain store (R210). -/

namespace Sys2Proof.Machine

/-- `R[DR] <- MemRead(ea, 16)` and `SetCC(DR)`, the end of LD, LDI and LDR. -/
def State.load (s : State) (dr : Reg) (ea : Word) : State := (s.afterRead ea).writeResult dr (s.readWord ea)

/-- LD (43_load_store.md R211). -/
def execLd (dr : Reg) (off9 : BitVec 9) (s : State) : Host.Outcome State Fault Refusal :=
  .next (s.load dr (pcRelative s off9))

/-- LDI: the pointer is read first, then the datum in the state that read leaves (43_load_store.md R212). -/
def execLdi (dr : Reg) (off9 : BitVec 9) (s : State) : Host.Outcome State Fault Refusal :=
  .next ((s.afterRead (pcRelative s off9)).load dr (s.readWord (pcRelative s off9)))

/-- LDR (43_load_store.md R213). -/
def execLdr (dr baseR : Reg) (off6 : BitVec 6) (s : State) : Host.Outcome State Fault Refusal :=
  .next (s.load dr (baseOffset s baseR off6))

/-- LEA: the address itself, with no memory access (43_load_store.md R214). -/
def execLea (dr : Reg) (off9 : BitVec 9) (s : State) : Host.Outcome State Fault Refusal :=
  .next (s.writeResult dr (pcRelative s off9))

/-- ST (43_load_store.md R216). -/
def execSt (sr : Reg) (off9 : BitVec 9) (s : State) : Host.Outcome State Fault Refusal :=
  .next (s.memWrite (pcRelative s off9) (s.reg sr))

/-- STI: the pointer is read, then the store made in the state that read leaves (43_load_store.md R217). -/
def execSti (sr : Reg) (off9 : BitVec 9) (s : State) : Host.Outcome State Fault Refusal :=
  .next ((s.afterRead (pcRelative s off9)).memWrite (s.readWord (pcRelative s off9)) (s.reg sr))

/-- STR (43_load_store.md R218). -/
def execStr (sr baseR : Reg) (off6 : BitVec 6) (s : State) : Host.Outcome State Fault Refusal :=
  .next (s.memWrite (baseOffset s baseR off6) (s.reg sr))

end Sys2Proof.Machine
end

