-- ==== Sys2Proof/Machine/Reserved.lean ====
section
/-! DEFINITION. The faulting opcodes RTI and RES (45_reserved.md). Each takes the fault: a next state with RUN
FAULTED and the cause recorded. -/

namespace Sys2Proof.Machine

/-- RTI (45_reserved.md R280). -/
def execRti (s : State) : Host.Outcome State Fault Refusal :=
  .next (s.raise (.decodeFault (opcodeNumber .rti)))

/-- RES (45_reserved.md R281). -/
def execRes (s : State) : Host.Outcome State Fault Refusal :=
  .next (s.raise (.decodeFault (opcodeNumber .res)))

end Sys2Proof.Machine
end

