-- ==== Sys2Proof/Machine/Trap.lean ====
section
/-! DEFINITION. The TRAP sub-operations (44_trap.md). None changes COND, the PC or R7 (R240, R241). -/

namespace Sys2Proof.Machine

/-- The character read shared by GETC and IN (44_trap.md R242, R245): the next character zero-extended into
R0, or `raise InputExhausted(vect)`. -/
def State.readChar (s : State) (vect : BitVec 8) : State :=
  match s.inNext with
  | some (c, s1) => s1.setReg .r0 (zext8 c)
  | none => s.raise (.inputExhausted vect)

/-- The string output shared by PUTS and PUTSP: walk from R0, then emit what `chars` makes of each word
(44_trap.md R244, R246); a walk that never ends is a hang (R248). -/
def writeString (chars : Word → List Word) (s : State) : Host.Outcome State Fault Refusal :=
  match stringWalk s.walkFuel (s.reg .r0) s with
  | some (ws, t) => .next (t.emit (ws.flatMap chars))
  | none => .fault .stringWalkHangs

/-- GETC (44_trap.md R242). -/
def execGetc (s : State) : Host.Outcome State Fault Refusal := .next (s.readChar 0x20#8)

/-- OUT: the whole word R0 as one code (44_trap.md R243). -/
def execOut (s : State) : Host.Outcome State Fault Refusal := .next (s.emit [s.reg .r0])

/-- PUTS: each word whole (44_trap.md R244). -/
def execPuts (s : State) : Host.Outcome State Fault Refusal := writeString (fun w => [w]) s

/-- IN: as GETC, under its own vector (44_trap.md R245). -/
def execIn (s : State) : Host.Outcome State Fault Refusal := .next (s.readChar 0x23#8)

/-- PUTSP: each word as one or two characters (44_trap.md R246). -/
def execPutsp (s : State) : Host.Outcome State Fault Refusal := writeString unpackWord s

/-- HALT (44_trap.md R247). -/
def execHalt (s : State) : Host.Outcome State Fault Refusal := .next ((s.emit s.cfg.haltText).setRun .halted)

/-- TRAP with an undefined vector: no effect (44_trap.md R249). -/
def execTrap (_vect : BitVec 8) (s : State) : Host.Outcome State Fault Refusal := .next s

end Sys2Proof.Machine
end

