-- ==== Sys2Proof/Machine/Step.lean ====
section
/-! DEFINITION. One step: a whole instruction cycle (40_instruction_cycle.md R150 to R157). -/

namespace Sys2Proof.Machine

/-- `Step()` of R154. In a terminal state no step is enabled and the whole state stays as it is (R157); the
model answers that same state (DESIGN CHOICE, assumption log 25). -/
def step (s : State) : Host.Outcome State Fault Refusal :=
  match s.run with
  | .running => exec (decode s.fetchWord) s.afterFetch
  | .halted => .next s
  | .faulted => .next s

/-- Where `withFetchWord` puts the word: at the PC, or one past it when the PC is the status address, whose
stored content is never fetched (70_reset_and_hazards.md R344; assumption log 5). -/
def State.placeAddress (s : State) : Word := if s.pc = s.cfg.kbsrAddr then add16 s.pc 1#16 else s.pc

/-- `s` running, with the word `w` where the next step fetches (assumption log 5). -/
def State.withFetchWord (s : State) (nbits w : Nat) : State :=
  ((s.setPc s.placeAddress).poke s.placeAddress (BitVec.ofNat 16 (w % 2 ^ nbits))).setRun .running

end Sys2Proof.Machine
end

