-- ==== Sys2Proof/Machine/Launch.lean ====
section
/-! DEFINITION. Reset and image load: how a program comes to run (70_reset_and_hazards.md R330 to R336;
assumption log 5, 22). -/

namespace Sys2Proof.Machine

/-- The stores of R334: `words` at rising addresses from `a`, plain, with no device side effect (20_memory.md R89). -/
def State.loadWords (s : State) : Word → List Word → State
  | _, [] => s
  | a, w :: rest => (s.poke a w).loadWords (add16 a 1#16) rest

/-- A character code of the launch's input fits in 8 bits (10_state.md R52). -/
def inputCodesFit (codes : List Nat) : Bool := codes.all (fun c => decide (c ≤ 255))

/-- Reset with its parameters (R330): the state of 10_state.md R59, or the refusal of an inadmissible launch
(00_scope.md R9, 10_state.md R52, 70_reset_and_hazards.md R334). -/
def launch (cfg : Config) (codes : List Nat) (img : Image) : Host.Outcome State Fault Refusal :=
  if !cfg.wf then .refused .keyboardAddressesEqual
  else if !inputCodesFit codes then .refused .inputCodeTooWide
  else if !img.admissible then .refused .imagePastEnd
  else
    .next ((({ State.reset with cfg := cfg, input := codes.map (BitVec.ofNat 8) }
      : State).loadWords img.startAddress img.words).setPc pcStart)

end Sys2Proof.Machine
end

