-- ==== Sys2Proof/Safety.lean ====
section
/-! DEFINITION. The terms that claims use: what a safe and a final state is, the invariant of every run, what a
step leaves alone, and the spec's arithmetic written in natural numbers, apart from the model's own. -/

namespace Sys2Proof.Machine

/-! Run states (60_exceptions.md R301). -/

/-- HALTED is the only final state. -/
def State.final (s : State) : Bool := s.run == .halted

/-- FAULTED is a fault state and never final; every other state is safe. -/
def State.safe (s : State) : Bool := s.run != .faulted

/-- An outcome whose next state, if there is one, satisfies `p`. -/
def nextSatisfies (o : Host.Outcome State Fault Refusal) (p : State → Prop) : Prop :=
  ∃ t, o = .next t ∧ p t

/-! The invariant. -/

/-- COND is 0b000 before the first flag-writing instruction and has exactly one bit set after it
(10_state.md R44, R45). -/
def legalCond (c : BitVec 3) : Bool := c == 0b000#3 || c == condNeg || c == condZro || c == condPos

/-- CAUSE is `None` unless RUN is FAULTED, and then it is one of the four causes of 60_exceptions.md R290. -/
def causeAgrees : RunState → Cause → Bool
  | .running, c => c == .noFault
  | .halted, c => c == .noFault
  | .faulted, c =>
    c == .decodeFault 8#4 || c == .decodeFault 13#4 || c == .inputExhausted 0x20#8 || c == .inputExhausted 0x23#8

/-- What holds at every launch and is kept by every step. -/
structure State.Inv (s : State) : Prop where
  /-- The memory list is canonical. -/
  memCanonical : Memory.wf s.mem = true
  /-- `INPOS` is in the range 0 to len(INPUT) (10_state.md R51). -/
  cursorInRange : s.inpos ≤ s.input.length
  /-- COND is legal. -/
  condLegal : legalCond s.cond = true
  /-- CAUSE agrees with RUN. -/
  causeLegal : causeAgrees s.run s.cause = true
  /-- The keyboard addresses are distinct (00_scope.md R9). -/
  addressesDistinct : s.cfg.wf = true

/-! What is left alone, from `s` to `t`. -/

/-- Every register outside `rs` is unchanged. -/
def RegsExcept (rs : List Reg) (s t : State) : Prop := ∀ r, r ∉ rs → t.reg r = s.reg r

/-- Every memory word outside `as` reads as before. -/
def MemoryExcept (as : List Word) (s t : State) : Prop := ∀ a, a ∉ as → t.peek a = s.peek a

/-- Input cursor and output record are unchanged. -/
def SameIo (s t : State) : Prop := t.inpos = s.inpos ∧ t.out = s.out

/-- Run state and cause are unchanged. -/
def SameRun (s t : State) : Prop := t.run = s.run ∧ t.cause = s.cause

/-- The parameters of the run are unchanged. -/
def SameParams (s t : State) : Prop := t.input = s.input ∧ t.cfg = s.cfg

/-- Word `v` is in memory at `a` and nothing else differs: registers, COND, PC, every other memory word, I/O,
run state and parameters. -/
def WordStored (s t : State) (a v : Word) : Prop :=
  t.peek a = v ∧ MemoryExcept [a] s t ∧ RegsExcept [] s t ∧ t.cond = s.cond ∧ t.pc = s.pc ∧
    SameIo s t ∧ SameRun s t ∧ SameParams s t

/-! The spec's arithmetic (00_scope.md R15 to R18; 10_state.md R42). -/

/-- `sext_N(v)` of R17 as a number. -/
def specSext (n v : Nat) : Nat := if v < 2 ^ (n - 1) then v else v + (65536 - 2 ^ n)

/-- COND of R42 as a number, for the number `v` of the written word. -/
def specCond (v : Nat) : Nat := if v = 0 then 2 else if 32768 ≤ v then 4 else 1

/-- `w[hi:lo]` of R15 as a number. -/
def specField (w hi lo : Nat) : Nat := w / 2 ^ lo % 2 ^ (hi - lo + 1)

/-- Register `dr` holds the number `v`, COND is `SetCC` of it, and nothing else differs: every other register,
PC, every memory word, I/O, run state and parameters. -/
def ResultWritten (s t : State) (dr : Reg) (v : Nat) : Prop :=
  (t.reg dr).toNat = v ∧ t.cond.toNat = specCond v ∧ RegsExcept [dr] s t ∧ t.pc = s.pc ∧ MemoryExcept [] s t ∧
    SameIo s t ∧ SameRun s t ∧ SameParams s t

/-- The PC is the number `target`, the registers outside `rs` are unchanged, and so is everything else. -/
def Transferred (s t : State) (rs : List Reg) (target : Nat) : Prop :=
  t.pc.toNat = target ∧ RegsExcept rs s t ∧ t.cond = s.cond ∧ MemoryExcept [] s t ∧
    SameIo s t ∧ SameRun s t ∧ SameParams s t

/-! The string walk as a relation, with no bound on the number of reads (44_trap.md R244, R246, R248). -/

/-- Reading from address `a` in state `s` meets the non-zero words `ws` and then a zero word, and leaves `t`. -/
inductive StringRead : State → Word → List Word → State → Prop
  /-- The word read is zero: the walk ends, after the read's own side effect. -/
  | stop (s : State) (a : Word) : s.readWord a = 0x0000#16 → StringRead s a [] (s.afterRead a)
  /-- The word read is not zero: it is collected and the walk goes on at the next address, mod 65536. -/
  | more (s t : State) (a : Word) (ws : List Word) : s.readWord a ≠ 0x0000#16 →
      StringRead (s.afterRead a) (add16 a 1#16) ws t → StringRead s a (s.readWord a :: ws) t

/-- The characters of one packed word (44_trap.md R246), as numbers: the low byte always, then the high byte if
it is not zero. -/
def specUnpack (w : Nat) : List Nat :=
  (w % 256) :: (if w / 256 = 0 then [] else [w / 256])

/-- The characters `cs` are emitted after the walk that ends in `u`: registers, COND, PC, run state and
parameters are those of `s`, memory and the input cursor those of `u`. -/
def StringEmitted (s u t : State) (cs : List Nat) : Prop :=
  t.out.map BitVec.toNat = s.out.map BitVec.toNat ++ cs ∧ RegsExcept [] s t ∧ t.cond = s.cond ∧ t.pc = s.pc ∧
    SameRun s t ∧ SameParams s t ∧ MemoryExcept [] u t ∧ t.inpos = u.inpos

/-! The spec's decoder, words and effect lists, apart from the model's own. -/

/-- The register of index `n`, 0 to 7 (10_state.md R31). -/
def specReg : Nat → Reg
  | 0 => .r0
  | 1 => .r1
  | 2 => .r2
  | 3 => .r3
  | 4 => .r4
  | 5 => .r5
  | 6 => .r6
  | _ => .r7

/-- The sub-operation of trap vector `n` (30_encoding.md R130, R131). -/
def specTrap : Nat → Instr
  | 0x20 => .getc
  | 0x21 => .out
  | 0x22 => .puts
  | 0x23 => .inChar
  | 0x24 => .putsp
  | 0x25 => .halt
  | n => .trap (BitVec.ofNat 8 n)

/-- The decoder of 30_encoding.md R130 written over natural numbers: fields are quotients and remainders (R15),
registers are their indices. -/
def specDecode (w : Nat) : Instr :=
  let hi := specReg (specField w 11 9)
  let mid := specReg (specField w 8 6)
  let low := specReg (specField w 2 0)
  let off9 := BitVec.ofNat 9 (specField w 8 0)
  match specField w 15 12 with
  | 0 => .br (BitVec.ofNat 3 (specField w 11 9)) off9
  | 1 => if specField w 5 5 = 0 then .addR hi mid low else .addI hi mid (BitVec.ofNat 5 (specField w 4 0))
  | 2 => .ld hi off9
  | 3 => .st hi off9
  | 4 => if specField w 11 11 = 1 then .jsr (BitVec.ofNat 11 (specField w 10 0)) else .jsrr mid
  | 5 => if specField w 5 5 = 0 then .andR hi mid low else .andI hi mid (BitVec.ofNat 5 (specField w 4 0))
  | 6 => .ldr hi mid (BitVec.ofNat 6 (specField w 5 0))
  | 7 => .str hi mid (BitVec.ofNat 6 (specField w 5 0))
  | 8 => .rti
  | 9 => .not hi mid
  | 10 => .ldi hi off9
  | 11 => .sti hi off9
  | 12 => .jmp mid
  | 13 => .res
  | 14 => .lea hi off9
  | _ => specTrap (specField w 7 0)

/-- The words of 30_encoding.md R132's table, as numbers (decisions D1, D4, D25; assumption log 6, 9, 30). -/
def specWord : Instr → Nat
  | .br nzp off9 => nzp.toNat * 512 + off9.toNat
  | .addR dr sr1 sr2 => 0x1000 + (regIndex dr).toNat * 512 + (regIndex sr1).toNat * 64 + (regIndex sr2).toNat
  | .addI dr sr1 imm5 => 0x1020 + (regIndex dr).toNat * 512 + (regIndex sr1).toNat * 64 + imm5.toNat
  | .ld dr off9 => 0x2000 + (regIndex dr).toNat * 512 + off9.toNat
  | .st sr off9 => 0x3000 + (regIndex sr).toNat * 512 + off9.toNat
  | .jsr off11 => 0x4800 + off11.toNat
  | .jsrr baseR => 0x4000 + (regIndex baseR).toNat * 64
  | .andR dr sr1 sr2 => 0x5000 + (regIndex dr).toNat * 512 + (regIndex sr1).toNat * 64 + (regIndex sr2).toNat
  | .andI dr sr1 imm5 => 0x5020 + (regIndex dr).toNat * 512 + (regIndex sr1).toNat * 64 + imm5.toNat
  | .ldr dr baseR off6 => 0x6000 + (regIndex dr).toNat * 512 + (regIndex baseR).toNat * 64 + off6.toNat
  | .str sr baseR off6 => 0x7000 + (regIndex sr).toNat * 512 + (regIndex baseR).toNat * 64 + off6.toNat
  | .rti => 0x8000
  | .not dr sr1 => 0x903F + (regIndex dr).toNat * 512 + (regIndex sr1).toNat * 64
  | .ldi dr off9 => 0xA000 + (regIndex dr).toNat * 512 + off9.toNat
  | .sti sr off9 => 0xB000 + (regIndex sr).toNat * 512 + off9.toNat
  | .jmp baseR => 0xC000 + (regIndex baseR).toNat * 64
  | .res => 0xD000
  | .lea dr off9 => 0xE000 + (regIndex dr).toNat * 512 + off9.toNat
  | .getc => 0xF020
  | .out => 0xF021
  | .puts => 0xF022
  | .inChar => 0xF023
  | .putsp => 0xF024
  | .halt => 0xF025
  | .trap vect => 0xF000 + vect.toNat

/-- The seven flag-writing instructions and their destination (10_state.md R43). -/
def flagWriter : Instr → Option Reg
  | .addR dr _ _ => some dr
  | .addI dr _ _ => some dr
  | .andR dr _ _ => some dr
  | .andI dr _ _ => some dr
  | .not dr _ => some dr
  | .ld dr _ => some dr
  | .ldi dr _ => some dr
  | .ldr dr _ _ => some dr
  | .lea dr _ => some dr
  | _ => none

/-- The registers an instruction may write: its destination, R7 for JSR and JSRR, R0 for GETC and IN
(10_state.md R32; that TRAP does not write R7 is decision D14, assumption log 17). -/
def writtenRegs : Instr → List Reg
  | .jsr _ => [.r7]
  | .jsrr _ => [.r7]
  | .getc => [.r0]
  | .inChar => [.r0]
  | i => (flagWriter i).toList

/-- The address an instruction stores to: ST, STI and STR have one, no other instruction has. -/
def storeAddress (i : Instr) (s : State) : List Word :=
  match i with
  | .st _ off9 => [pcRelative s off9]
  | .sti _ off9 => [s.readWord (pcRelative s off9)]
  | .str _ baseR off6 => [baseOffset s baseR off6]
  | _ => []

end Sys2Proof.Machine
end

