-- ==== Sys2Proof/Certificates/Slice0/Obligations.lean ====
section
/-! DEFINITION. The statements about the model, each from the spec's rules. In a statement about exec the state
is the one after the fetch, so its PC is the already-incremented PC (00_scope.md R24). -/

open Sys2Proof Sys2Proof.Machine

/-! ## Decoding and encoding -/

/-- A few words written out from the spec's encodings decode to the instructions they stand for. The opcode numbers
and some field positions are the spec's decisions D1 and D4 (assumption log 6, 9). -/
def Obligations.SampleWordsDecode : Prop :=
  decode 0b0001_001_010_0_00_011#16 = .addR .r1 .r2 .r3 ∧
  decode 0b0101_001_001_1_01111#16 = .andI .r1 .r1 0b01111#5 ∧
  decode 0b0000_010_000000010#16 = .br 0b010#3 2#9 ∧
  decode 0b0100_0_00_111_000000#16 = .jsrr .r7 ∧
  decode 0b0111_001_110_000100#16 = .str .r1 .r6 4#6 ∧
  decode 0b1111_0000_00100101#16 = .halt ∧
  decode 0b1101_000000000000#16 = .res

/-- Every word decodes as the algorithm of R130 says. The opcode numbers and some field positions are the spec's
decisions D1 and D4 (assumption log 6, 9). -/
def Obligations.DecodeFollowsTheAlgorithm : Prop :=
  ∀ w : Word, decode w = specDecode w.toNat

/-- Decoding the word of a well-formed instruction gives that instruction back, for every operand. -/
def Obligations.DecodeOfEncode : Prop :=
  ∀ i : Instr, i.wellFormed = true → decode (encode i) = i

/-- What every word decodes to is well formed, and encoding it gives the word back on every bit that its format
names (decisions D1, D4 and D5; assumption log 6, 9, 10). -/
def Obligations.EncodeOfDecodeOnUsedBits : Prop :=
  ∀ w : Word, (decode w).wellFormed = true ∧
    encode (decode w) &&& usedBits (decode w) = w &&& usedBits (decode w)

/-- Two words that differ only in bits their format does not name decode alike (decision D5; assumption log 10). -/
def Obligations.UnusedBitsIgnored : Prop :=
  ∀ w v : Word, v &&& usedBits (decode w) = w &&& usedBits (decode w) → decode v = decode w

/-- Every instruction's word is the number of R132's table (RES, which has no assembler form, by R113 and R124;
decisions D1, D4 and D25; assumption log 6, 9, 30). -/
def Obligations.EncodeFollowsTheFormulas : Prop :=
  ∀ i : Instr, (encode i).toNat = specWord i

/-! ## Operands and flags -/

/-- R17: the four sign extensions, and that bits N to 15 are 1 exactly in the second case. -/
def Obligations.SignExtensionFollowsItsRule : Prop :=
  (∀ v : BitVec 5, (sext5 v).toNat = specSext 5 v.toNat ∧
    ∀ k, 5 ≤ k → k < 16 → (sext5 v).getLsbD k = v.getLsbD 4) ∧
  (∀ v : BitVec 6, (sext6 v).toNat = specSext 6 v.toNat ∧
    ∀ k, 6 ≤ k → k < 16 → (sext6 v).getLsbD k = v.getLsbD 5) ∧
  (∀ v : BitVec 9, (sext9 v).toNat = specSext 9 v.toNat ∧
    ∀ k, 9 ≤ k → k < 16 → (sext9 v).getLsbD k = v.getLsbD 8) ∧
  (∀ v : BitVec 11, (sext11 v).toNat = specSext 11 v.toNat ∧
    ∀ k, 11 ≤ k → k < 16 → (sext11 v).getLsbD k = v.getLsbD 10)

/-- R42: what `SetCC(i)` sets COND to, that exactly one flag is set, and that nothing else changes. -/
def Obligations.SetCCFollowsItsRule : Prop :=
  ∀ (s : State) (r : Reg),
    ((s.reg r).toNat = 0 → (s.setCC r).cond = 0b010#3) ∧
    ((s.reg r).toNat ≠ 0 → (s.reg r)[15] = true → (s.setCC r).cond = 0b100#3) ∧
    ((s.reg r).toNat ≠ 0 → (s.reg r)[15] = false → (s.setCC r).cond = 0b001#3) ∧
    ((s.setCC r).cond = 0b010#3 ∨ (s.setCC r).cond = 0b100#3 ∨ (s.setCC r).cond = 0b001#3) ∧
    { s.setCC r with cond := s.cond } = s

/-! ## Memory and the keyboard words -/

/-- R76: `MemWrite` stores the word at the address and does nothing else, at every address. -/
def Obligations.MemWriteIsAPlainStore : Prop :=
  ∀ (s : State) (a v : Word), Memory.wf s.mem = true → WordStored s (s.memWrite a v) a v

/-- R74 away from the status address: the read changes no state and returns the stored word. -/
def Obligations.OtherReadsArePlain : Prop :=
  ∀ (s : State) (a : Word), a ≠ s.cfg.kbsrAddr → s.afterRead a = s ∧ s.readWord a = s.peek a

/-- R74 at the status address. With a character left it is delivered, the status is READY (0x8000: decision D9,
assumption log 12) and is the word returned, the cursor moves by one, and nothing else changes. With the input
exhausted the status becomes 0 and is returned, and nothing else changes. -/
def Obligations.StatusReadPollsTheKeyboard : Prop :=
  ∀ s : State, Memory.wf s.mem = true → s.cfg.kbsrAddr ≠ s.cfg.kbdrAddr →
    (∀ c : Byte, s.input[s.inpos]? = some c →
      s.readWord s.cfg.kbsrAddr = 0x8000#16 ∧
      (s.afterRead s.cfg.kbsrAddr).peek s.cfg.kbsrAddr = 0x8000#16 ∧
      ((s.afterRead s.cfg.kbsrAddr).peek s.cfg.kbdrAddr).toNat = c.toNat ∧
      (s.afterRead s.cfg.kbsrAddr).inpos = s.inpos + 1 ∧
      MemoryExcept [s.cfg.kbsrAddr, s.cfg.kbdrAddr] s (s.afterRead s.cfg.kbsrAddr) ∧
      { s.afterRead s.cfg.kbsrAddr with mem := s.mem, inpos := s.inpos } = s) ∧
    (s.input.length ≤ s.inpos →
      s.readWord s.cfg.kbsrAddr = 0x0000#16 ∧
      WordStored s (s.afterRead s.cfg.kbsrAddr) s.cfg.kbsrAddr 0x0000#16)

/-- A canonical memory is determined by what it reads as (the model's representation; assumption log 1). -/
def Obligations.CanonicalMemoryIsUnique : Prop :=
  ∀ m n : Memory, Memory.wf m = true → Memory.wf n = true →
    (∀ a : Word, Memory.get m a.toNat = Memory.get n a.toNat) → m = n

/-- A store is what the very next fetch reads, unless it fetches the status word (R87). -/
def Obligations.StoreIsSeenByTheNextFetch : Prop :=
  ∀ (s : State) (sr : Reg), Memory.wf s.mem = true → s.pc ≠ s.cfg.kbsrAddr →
    nextSatisfies (exec (.st sr 0#9) s) fun t => t.pc = s.pc ∧ t.fetchWord = s.reg sr

/-! ## ADD, AND, NOT -/

/-- R171: ADD, register form, completes with the sum mod 65536, its flags, and nothing else changed. -/
def Obligations.AddRegisterResult : Prop :=
  ∀ (s : State) (dr sr1 sr2 : Reg), nextSatisfies (exec (.addR dr sr1 sr2) s) fun t =>
    ResultWritten s t dr (((s.reg sr1).toNat + (s.reg sr2).toNat) % 65536)

/-- R172: ADD, immediate form. -/
def Obligations.AddImmediateResult : Prop :=
  ∀ (s : State) (dr sr1 : Reg) (imm5 : BitVec 5), nextSatisfies (exec (.addI dr sr1 imm5) s) fun t =>
    ResultWritten s t dr (((s.reg sr1).toNat + specSext 5 imm5.toNat) % 65536)

/-- R173: AND, register form. -/
def Obligations.AndRegisterResult : Prop :=
  ∀ (s : State) (dr sr1 sr2 : Reg), nextSatisfies (exec (.andR dr sr1 sr2) s) fun t =>
    ResultWritten s t dr (Nat.land (s.reg sr1).toNat (s.reg sr2).toNat)

/-- R174: AND, immediate form; the immediate is sign-extended before the AND. -/
def Obligations.AndImmediateResult : Prop :=
  ∀ (s : State) (dr sr1 : Reg) (imm5 : BitVec 5), nextSatisfies (exec (.andI dr sr1 imm5) s) fun t =>
    ResultWritten s t dr (Nat.land (s.reg sr1).toNat (specSext 5 imm5.toNat))

/-- R175: NOT. -/
def Obligations.NotResult : Prop :=
  ∀ (s : State) (dr sr1 : Reg), nextSatisfies (exec (.not dr sr1) s) fun t =>
    ResultWritten s t dr (65535 - (s.reg sr1).toNat)

/-! ## BR, JMP, JSR, JSRR -/

/-- R190: BR adds the offset exactly when some mask bit and COND bit agree; for a legal COND that is
"n and NEG, or z and ZRO, or p and POS" (the pairing is decision D2, assumption log 7). Nothing else changes. -/
def Obligations.BranchFollowsItsRule : Prop :=
  ∀ (s : State) (nzp : BitVec 3) (off9 : BitVec 9),
    (nextSatisfies (exec (.br nzp off9) s) fun t =>
      Transferred s t []
        (if ∃ k, k < 3 ∧ nzp.getLsbD k = true ∧ s.cond.getLsbD k = true
          then (s.pc.toNat + specSext 9 off9.toNat) % 65536 else s.pc.toNat)) ∧
    (legalCond s.cond = true →
      ((∃ k, k < 3 ∧ nzp.getLsbD k = true ∧ s.cond.getLsbD k = true) ↔
        (nzp.getLsbD 2 = true ∧ s.cond = 0b100#3) ∨ (nzp.getLsbD 1 = true ∧ s.cond = 0b010#3) ∨
          (nzp.getLsbD 0 = true ∧ s.cond = 0b001#3)))

/-- R192: JMP loads the PC from the register and changes nothing else; RET is the case R7. -/
def Obligations.JumpFollowsItsRule : Prop :=
  ∀ (s : State) (baseR : Reg), nextSatisfies (exec (.jmp baseR) s) fun t =>
    Transferred s t [] (s.reg baseR).toNat

/-- R193: JSR saves the already-incremented PC in R7 and adds the offset to the PC; a JMP R7 in any later state
`u` with the same R7 comes back to the instruction after the JSR. -/
def Obligations.JsrFollowsItsRule : Prop :=
  ∀ (s : State) (off11 : BitVec 11), nextSatisfies (exec (.jsr off11) s) fun t =>
    t.reg .r7 = s.pc ∧ Transferred s t [.r7] ((s.pc.toNat + specSext 11 off11.toNat) % 65536) ∧
      ∀ u : State, u.reg .r7 = t.reg .r7 → nextSatisfies (exec (.jmp .r7) u) fun v => v.pc = s.pc

/-- R194: JSRR saves first and reads the base register after that, so JSRR R7 falls through. -/
def Obligations.JsrrFollowsItsRule : Prop :=
  ∀ (s : State) (baseR : Reg), nextSatisfies (exec (.jsrr baseR) s) fun t =>
    t.reg .r7 = s.pc ∧
      Transferred s t [.r7] (if baseR = .r7 then s.pc.toNat else (s.reg baseR).toNat)

/-! ## Loads and stores -/

/-- R211: LD reads at the PC-relative address, device-aware, and sets the flags from the word. -/
def Obligations.LdFollowsItsRule : Prop :=
  ∀ (s : State) (dr : Reg) (off9 : BitVec 9),
    (pcRelative s off9).toNat = (s.pc.toNat + specSext 9 off9.toNat) % 65536 ∧
    nextSatisfies (exec (.ld dr off9) s) fun t =>
      ResultWritten (s.afterRead (pcRelative s off9)) t dr (s.readWord (pcRelative s off9)).toNat

/-- R212: LDI reads the pointer and then, in the state that read leaves, the datum. -/
def Obligations.LdiFollowsItsRule : Prop :=
  ∀ (s : State) (dr : Reg) (off9 : BitVec 9),
    (pcRelative s off9).toNat = (s.pc.toNat + specSext 9 off9.toNat) % 65536 ∧
    nextSatisfies (exec (.ldi dr off9) s) fun t =>
      let u := s.afterRead (pcRelative s off9)
      let ptr := s.readWord (pcRelative s off9)
      ResultWritten (u.afterRead ptr) t dr (u.readWord ptr).toNat

/-- R213: LDR reads at base plus offset. -/
def Obligations.LdrFollowsItsRule : Prop :=
  ∀ (s : State) (dr baseR : Reg) (off6 : BitVec 6),
    (baseOffset s baseR off6).toNat = ((s.reg baseR).toNat + specSext 6 off6.toNat) % 65536 ∧
    nextSatisfies (exec (.ldr dr baseR off6) s) fun t =>
      ResultWritten (s.afterRead (baseOffset s baseR off6)) t dr (s.readWord (baseOffset s baseR off6)).toNat

/-- R214: LEA writes the address itself, with no memory access, and sets the flags. -/
def Obligations.LeaFollowsItsRule : Prop :=
  ∀ (s : State) (dr : Reg) (off9 : BitVec 9), nextSatisfies (exec (.lea dr off9) s) fun t =>
    ResultWritten s t dr ((s.pc.toNat + specSext 9 off9.toNat) % 65536)

/-- R216: ST stores the register at the PC-relative address and changes nothing else. -/
def Obligations.StFollowsItsRule : Prop :=
  ∀ (s : State) (sr : Reg) (off9 : BitVec 9), Memory.wf s.mem = true →
    (pcRelative s off9).toNat = (s.pc.toNat + specSext 9 off9.toNat) % 65536 ∧
    nextSatisfies (exec (.st sr off9) s) fun t => WordStored s t (pcRelative s off9) (s.reg sr)

/-- R217: STI reads the pointer (device-aware: decision D8, assumption log 11) and stores there. -/
def Obligations.StiFollowsItsRule : Prop :=
  ∀ (s : State) (sr : Reg) (off9 : BitVec 9), Memory.wf s.mem = true →
    (pcRelative s off9).toNat = (s.pc.toNat + specSext 9 off9.toNat) % 65536 ∧
    nextSatisfies (exec (.sti sr off9) s) fun t =>
      WordStored (s.afterRead (pcRelative s off9)) t (s.readWord (pcRelative s off9)) (s.reg sr)

/-- R218: STR stores at base plus offset. -/
def Obligations.StrFollowsItsRule : Prop :=
  ∀ (s : State) (sr baseR : Reg) (off6 : BitVec 6), Memory.wf s.mem = true →
    (baseOffset s baseR off6).toNat = ((s.reg baseR).toNat + specSext 6 off6.toNat) % 65536 ∧
    nextSatisfies (exec (.str sr baseR off6) s) fun t => WordStored s t (baseOffset s baseR off6) (s.reg sr)

/-! ## TRAP -/

/-- GETC and IN with a character left: its code, zero-extended, is in R0 and the cursor is one further. Nothing
else changes: COND, R7, PC, OUT and the keyboard words among it (decisions D11, D12, D13, D14; assumption log
14 to 17). -/
def Obligations.CharacterReadDelivers : Prop :=
  ∀ (s : State) (i : Instr) (c : Byte), i = .getc ∨ i = .inChar → s.input[s.inpos]? = some c →
    nextSatisfies (exec i s) fun t =>
      (t.reg .r0).toNat = c.toNat ∧ t.inpos = s.inpos + 1 ∧ RegsExcept [.r0] s t ∧ t.cond = s.cond ∧
        t.pc = s.pc ∧ MemoryExcept [] s t ∧ t.out = s.out ∧ SameRun s t ∧ SameParams s t

/-- GETC and IN with the input exhausted raise `InputExhausted` with their own vector and change nothing else
(decision D16, assumption log 19). -/
def Obligations.CharacterReadFaultsWhenExhausted : Prop :=
  ∀ s : State, s.input.length ≤ s.inpos →
    exec .getc s = .next { s with run := .faulted, cause := .inputExhausted 0x20#8 } ∧
    exec .inChar s = .next { s with run := .faulted, cause := .inputExhausted 0x23#8 }

/-- OUT emits the whole word R0 (decision D17, assumption log 20) and changes nothing else. -/
def Obligations.OutEmitsR0 : Prop :=
  ∀ s : State, nextSatisfies (exec .out s) fun t =>
    t.out = s.out ++ [s.reg .r0] ∧ RegsExcept [] s t ∧ t.cond = s.cond ∧ t.pc = s.pc ∧ MemoryExcept [] s t ∧
      t.inpos = s.inpos ∧ SameRun s t ∧ SameParams s t

/-- PUTS always completes: it reads the string from R0 up to a zero word and emits its words whole (decision D17,
assumption log 20; that the walk ends is assumption log 24). -/
def Obligations.PutsWritesItsString : Prop :=
  ∀ s : State, Memory.wf s.mem = true →
    ∃ ws u, StringRead s (s.reg .r0) ws u ∧
      nextSatisfies (exec .puts s) fun t => StringEmitted s u t (ws.map BitVec.toNat)

/-- PUTSP always completes: each word gives its low byte and, when it is not zero, its high byte (which byte is
which: decision D27, assumption log 28). That the walk always ends is the inference of R248(b), assumption log 24. -/
def Obligations.PutspWritesItsString : Prop :=
  ∀ s : State, Memory.wf s.mem = true →
    ∃ ws u, StringRead s (s.reg .r0) ws u ∧
      nextSatisfies (exec .putsp s) fun t => StringEmitted s u t (ws.flatMap fun w => specUnpack w.toNat)

/-- PUTS on a string of `n` non-zero memory words and a zero word, away from the status address: those words are
emitted, in order, and nothing but OUT changes. For n = 0 nothing is emitted. That each word is emitted whole is
decision D17 (DESIGN CHOICE, assumption log 20). -/
def Obligations.PutsOnAPlainString : Prop :=
  ∀ (s : State) (n : Nat), n < 65536 →
    (∀ k, k ≤ n → s.reg .r0 + BitVec.ofNat 16 k ≠ s.cfg.kbsrAddr) →
    (∀ k, k < n → s.peek (s.reg .r0 + BitVec.ofNat 16 k) ≠ 0x0000#16) →
    s.peek (s.reg .r0 + BitVec.ofNat 16 n) = 0x0000#16 →
    exec .puts s =
      .next { s with out := s.out ++ (List.range n).map fun k => s.peek (s.reg .r0 + BitVec.ofNat 16 k) }

/-- HALT emits HALT_TEXT, whatever it is, once, and halts; nothing else changes (decision D18, assumption log 21). -/
def Obligations.HaltEmitsAndHalts : Prop :=
  ∀ s : State, nextSatisfies (exec .halt s) fun t =>
    t.out = s.out ++ s.cfg.haltText ∧ t.run = .halted ∧ t.cause = s.cause ∧ RegsExcept [] s t ∧
      t.cond = s.cond ∧ t.pc = s.pc ∧ MemoryExcept [] s t ∧ t.inpos = s.inpos ∧ SameParams s t

/-- TRAP with an undefined vector has no effect, and a TRAP word with such a vector is that instruction (decision
D15, assumption log 18). -/
def Obligations.UndefinedTrapDoesNothing : Prop :=
  (∀ (s : State) (vect : BitVec 8), vect.toNat < 0x20 ∨ 0x25 < vect.toNat →
    exec (.trap vect) s = .next s) ∧
  (∀ w : Word, w.toNat / 4096 = 15 → w.toNat % 256 < 0x20 ∨ 0x25 < w.toNat % 256 →
    decode w = .trap (BitVec.ofNat 8 (w.toNat % 256)))

/-! ## Faults and the run state -/

/-- R281: every word with opcode 1101 is RES; RES raises `DecodeFault(13)` and changes nothing else, so a step
that fetches one leaves the PC one past it and nothing further runs. -/
def Obligations.ResRaisesDecodeFault : Prop :=
  (∀ w : Word, w.toNat / 4096 = 13 → decode w = .res) ∧
  (∀ s : State, exec .res s = .next { s with run := .faulted, cause := .decodeFault 13#4 }) ∧
  (∀ s : State, s.run = .running → (s.readWord s.pc).toNat / 4096 = 13 →
    nextSatisfies (step s) fun t =>
      t = { s.afterRead s.pc with pc := s.pc + 1#16, run := .faulted, cause := .decodeFault 13#4 } ∧
        ∀ u, step t = .next u → u = t)

/-- RTI, opcode 8 (decision D1, assumption log 6), raises `DecodeFault(8)` and changes nothing else. -/
def Obligations.RtiRaisesDecodeFault : Prop :=
  (∀ w : Word, w.toNat / 4096 = 8 → decode w = .rti) ∧
  ∀ s : State, exec .rti s = .next { s with run := .faulted, cause := .decodeFault 8#4 }

/-- R297: a step that faults has done its fetch and its PC increment, has set RUN and CAUSE, and has changed
nothing else; after it the machine stops. -/
def Obligations.FaultsArePrecise : Prop :=
  ∀ s t : State, s.run = .running → step s = .next t → t.run = .faulted →
    t = { s.afterRead s.pc with pc := s.pc + 1#16, run := .faulted, cause := t.cause } ∧ t.cause ≠ .noFault ∧
      ∀ u, step t = .next u → u = t

/-- R154: while RUN is RUNNING the step reads at the PC, increments the PC, decodes what it read and executes it in
that state; the execution leaves RUN at RUNNING, or is HALT, or is a raise. Otherwise nothing is executed: a step
changes nothing. -/
def Obligations.StepRunsTheDecodedInstruction : Prop :=
  (∀ s t : State, s.run ≠ .running → step s = .next t → t = s) ∧
  ∀ s : State, s.run = .running →
    let w := s.readWord s.pc
    let u := { s.afterRead s.pc with pc := BitVec.ofNat 16 ((s.pc.toNat + 1) % 65536) }
    step s = exec (decode w) u ∧
    ∀ t, exec (decode w) u = .next t →
      t.run = .running ∨ (decode w = .halt ∧ t.run = .halted) ∨
        (t.run = .faulted ∧ ∃ c, c ≠ .noFault ∧ t = u.raise c)

/-- A step from a terminal state answers that state (R157; that it answers at all is the model's choice,
assumption log 25). -/
def Obligations.TerminalStatesStay : Prop :=
  ∀ s : State, s.run ≠ .running → step s = .next s

/-- R300: from RUNNING, a step halts exactly on HALT and faults exactly on RTI, RES and on GETC or IN at
exhausted input, with the cause of the table; every launch starts RUNNING; nothing leaves HALTED or FAULTED. Rests on decisions D1, D16
and D20 (assumption log 6, 19, 23). -/
def Obligations.RunStateTransitions : Prop :=
  (∀ s t : State, s.run = .running → step s = .next t →
    let i := decode (s.readWord s.pc)
    let exhausted := s.input.length ≤ (s.afterRead s.pc).inpos
    (t.run = .halted ↔ i = .halt) ∧
    (t.run = .faulted ↔ i = .rti ∨ i = .res ∨ ((i = .getc ∨ i = .inChar) ∧ exhausted)) ∧
    (i = .rti ∨ i = .res → t.cause = .decodeFault (BitVec.ofNat 4 ((s.readWord s.pc).toNat / 4096))) ∧
    (i = .getc ∧ exhausted → t.cause = .inputExhausted 0x20#8) ∧
    (i = .inChar ∧ exhausted → t.cause = .inputExhausted 0x23#8)) ∧
  (∀ cfg codes img t, launch cfg codes img = .next t → t.run = .running) ∧
  (∀ s t : State, s.run ≠ .running → step s = .next t → t.run = s.run)

/-- Fetching at the status address (R344): with a character left it is consumed and the step faults as an RTI;
with none left the step is a never-taken branch. Rests on decisions D1, D8, D9 (assumption log 6, 11, 12). -/
def Obligations.FetchAtTheStatusWord : Prop :=
  ∀ s : State, s.Inv → s.run = .running → s.pc = s.cfg.kbsrAddr →
    (s.inpos < s.input.length → nextSatisfies (step s) fun t =>
      t.run = .faulted ∧ t.cause = .decodeFault 8#4 ∧ t.inpos = s.inpos + 1 ∧ t.pc = s.pc + 1#16 ∧
        t.peek s.cfg.kbsrAddr = 0x8000#16) ∧
    (s.input.length ≤ s.inpos → nextSatisfies (step s) fun t =>
      t.run = .running ∧ t.pc = s.pc + 1#16 ∧ t.inpos = s.inpos ∧ RegsExcept [] s t ∧
        t.peek s.cfg.kbsrAddr = 0x0000#16 ∧ MemoryExcept [s.cfg.kbsrAddr] s t)

/-! ## Whole-machine rules -/

/-- COND is written by exactly the flag-writing instructions, each from the register it has just written, and by
no other (R43; for GETC and IN decision D12, assumption log 15). -/
def Obligations.OnlyFlagWritersWriteCond : Prop :=
  ∀ (i : Instr) (s t : State), exec i s = .next t →
    match flagWriter i with
    | some dr => t.cond.toNat = specCond (t.reg dr).toNat
    | none => t.cond = s.cond

/-- No instruction writes a register but the ones `writtenRegs` names. -/
def Obligations.OnlyNamedRegistersAreWritten : Prop :=
  ∀ (i : Instr) (s t : State), exec i s = .next t → RegsExcept (writtenRegs i) s t

/-- No instruction changes a memory word but the one it stores to and, through a status read, the two keyboard
words (20_memory.md R74, R76, R78). -/
def Obligations.OnlyStoresAndPollsChangeMemory : Prop :=
  ∀ (i : Instr) (s t : State), exec i s = .next t →
    MemoryExcept (s.cfg.kbsrAddr :: s.cfg.kbdrAddr :: storeAddress i s) s t

/-- R35: how each instruction changes the PC after the increment. -/
def Obligations.PcChangesByItsRule : Prop :=
  ∀ (i : Instr) (s t : State), exec i s = .next t →
    match i with
    | .br nzp off9 =>
      t.pc.toNat = if nzp &&& s.cond = 0b000#3 then s.pc.toNat
        else (s.pc.toNat + specSext 9 off9.toNat) % 65536
    | .jmp baseR => t.pc = s.reg baseR
    | .jsr off11 => t.pc.toNat = (s.pc.toNat + specSext 11 off11.toNat) % 65536
    | .jsrr baseR => t.pc = t.reg baseR
    | .rti => t.pc = s.pc ∧ t.run = .faulted
    | .res => t.pc = s.pc ∧ t.run = .faulted
    | _ => t.pc = s.pc

/-- The input cursor never moves back and never passes the end of the input (10_state.md R51). -/
def Obligations.InputCursorMovesForward : Prop :=
  ∀ s t : State, s.inpos ≤ s.input.length → step s = .next t → s.inpos ≤ t.inpos ∧ t.inpos ≤ t.input.length

/-- OUT is only ever appended to, and only by OUT, PUTS, PUTSP and HALT (10_state.md R53). -/
def Obligations.OutputIsOnlyAppended : Prop :=
  ∀ (i : Instr) (s t : State), exec i s = .next t →
    ∃ cs, t.out = s.out ++ cs ∧ (i ≠ .out → i ≠ .puts → i ≠ .putsp → i ≠ .halt → cs = [])

/-- No instruction reads OUT: with another record before the step, the same is appended and all else is the
same (10_state.md R53, R58). -/
def Obligations.OutputIsNeverRead : Prop :=
  ∀ (s t : State) (o : List Word), step { s with out := [] } = .next t →
    step { s with out := o } = .next { t with out := o ++ t.out }

/-- The parameters of the run never change (00_scope.md R11; assumption log 2). -/
def Obligations.ParametersNeverChange : Prop :=
  ∀ s t : State, step s = .next t → SameParams s t

/-! ## Reset, launch and the invariant -/

/-- The state after reset with an empty image, as the source gives it: every memory word 0, the cursor at 0, the PC
at 0x3000, RUN at RUNNING. -/
def Obligations.ResetValuesOfTheRules : Prop :=
  (∀ a : Word, State.reset.peek a = 0x0000#16) ∧ State.reset.inpos = 0 ∧ State.reset.pc = 0x3000#16 ∧
    State.reset.run = .running

/-- The registers and COND after reset: the spec's decisions D6 and D7, the model's DESIGN CHOICE of assumption
log 3 and 4. The empty output record is the spec's inference, the form of CAUSE its decision D20 (log 23). -/
def Obligations.ResetValuesOfTheDecisions : Prop :=
  (∀ r, State.reset.reg r = 0x0000#16) ∧ State.reset.cond = 0b000#3 ∧ State.reset.out = [] ∧
    State.reset.cause = .noFault

/-- An admissible launch has the image's words at their addresses, zero elsewhere, PC 0x3000 whatever the start
address, and the input bound (R331 to R336). Which inputs and images are admissible: decisions D10 and D19
(assumption log 13, 22). -/
def Obligations.LaunchPlacesTheImage : Prop :=
  ∀ (cfg : Config) (codes : List Nat) (img : Image), cfg.kbsrAddr ≠ cfg.kbdrAddr →
    (∀ c ∈ codes, c ≤ 255) → img.startAddress.toNat + img.words.length ≤ 65536 →
    nextSatisfies (launch cfg codes img) fun t =>
      (∀ (k : Nat) (h : k < img.words.length),
        t.peek (BitVec.ofNat 16 (img.startAddress.toNat + k)) = img.words[k]) ∧
      (∀ a : Word, a.toNat < img.startAddress.toNat ∨ img.startAddress.toNat + img.words.length ≤ a.toNat →
        t.peek a = 0x0000#16) ∧
      t.pc = 0x3000#16 ∧ t.run = .running ∧ t.cause = .noFault ∧ t.inpos = 0 ∧ t.out = [] ∧
      t.input.map BitVec.toNat = codes ∧ t.cfg = cfg

/-- A launch whose image would run past address 0xFFFF is refused (R334; decision D19, assumption log 22). -/
def Obligations.LaunchRefusesAnImagePastTheEnd : Prop :=
  ∀ (cfg : Config) (codes : List Nat) (img : Image), cfg.kbsrAddr ≠ cfg.kbdrAddr →
    (∀ c ∈ codes, c ≤ 255) → 65536 < img.startAddress.toNat + img.words.length →
    launch cfg codes img = .refused .imagePastEnd

/-- The invariant holds at reset; COND there is decision D7 (assumption log 4), the form of CAUSE D20 (log 23). -/
def Obligations.InvariantHoldsAtReset : Prop := State.reset.Inv

/-- The invariant holds after every launch that is not refused. -/
def Obligations.InvariantHoldsAtLaunch : Prop :=
  ∀ cfg codes img t, launch cfg codes img = .next t → t.Inv

/-- Every step keeps the invariant: memory canonical, cursor in range, COND legal, CAUSE agreeing with RUN,
keyboard addresses distinct. -/
def Obligations.EveryStepKeepsTheInvariant : Prop :=
  ∀ s t : State, s.Inv → step s = .next t → t.Inv

/-- From a canonical memory every step answers a next state, and its memory is canonical again: no instruction is
refused and no string walk hangs. That a walk always ends is the inference of R248(b),
assumption log 24. That a step answers in HALTED and FAULTED too is the model's choice, assumption log 25: the spec
says that no step exists there (R150, R154). -/
def Obligations.EveryStepAnswers : Prop :=
  ∀ s : State, Memory.wf s.mem = true → nextSatisfies (step s) fun t => Memory.wf t.mem = true
end

