-- ==== Sys2Proof/Laws/Decode.lean ====
section
/-! SUPPORT. The fields of a word as numbers, the tables both ways, and the fields of each format's word. -/

namespace Sys2Proof

/-! The tables. -/

/-- The opcode table read both ways. -/
@[simp] theorem opcodeOf_opcodeNumber (op : Opcode) : opcodeOf (opcodeNumber op) = op := by
  cases op <;> rfl

/-- The opcode table read both ways. -/
@[simp] theorem opcodeNumber_opcodeOf (n : BitVec 4) : opcodeNumber (opcodeOf n) = n := by
  revert n; decide

/-- The register table read both ways. -/
@[simp] theorem regOf_regIndex (r : Reg) : regOf (regIndex r) = r := by
  cases r <;> rfl

/-- The register table read both ways. -/
@[simp] theorem regIndex_regOf (n : BitVec 3) : regIndex (regOf n) = n := by
  revert n; decide

/-! The fields as numbers: `w[hi:lo]` = floor(w / 2^lo) mod 2^(hi-lo+1) (00_scope.md R15). -/

/-- A field of `len` bits from bit `lo`. -/
theorem field_toNat (w : Word) (lo len : Nat) : (w.extractLsb' lo len).toNat = w.toNat / 2 ^ lo % 2 ^ len := by
  simp [BitVec.extractLsb'_toNat, Nat.shiftRight_eq_div_pow]

/-- Concatenation as a number. -/
theorem append_toNat {m n : Nat} (x : BitVec m) (y : BitVec n) : (x ++ y).toNat = x.toNat * 2 ^ n + y.toNat := by
  rw [BitVec.toNat_append, ← Nat.shiftLeft_add_eq_or_of_lt y.isLt, Nat.shiftLeft_eq]

/-! The words of the formats as numbers. -/

section Formats

variable (op : Opcode) (high : BitVec 3) (dr mid low : Reg)

theorem wordOff9_toNat (off9 : BitVec 9) :
    (wordOff9 op high off9).toNat = (opcodeNumber op).toNat * 4096 + high.toNat * 512 + off9.toNat := by
  simp only [wordOff9, append_toNat]; omega

theorem wordBase_toNat (l : BitVec 6) : (wordBase op high mid l).toNat =
    (opcodeNumber op).toNat * 4096 + high.toNat * 512 + (regIndex mid).toNat * 64 + l.toNat := by
  simp only [wordBase, append_toNat]; omega

theorem wordAluR_toNat : (wordAluR op dr mid low).toNat =
    (opcodeNumber op).toNat * 4096 + (regIndex dr).toNat * 512 + (regIndex mid).toNat * 64 +
      (regIndex low).toNat := by
  simp only [wordAluR, append_toNat, BitVec.toNat_ofNat]; omega

theorem wordAluI_toNat (imm5 : BitVec 5) : (wordAluI op dr mid imm5).toNat =
    (opcodeNumber op).toNat * 4096 + (regIndex dr).toNat * 512 + (regIndex mid).toNat * 64 + 32 +
      imm5.toNat := by
  simp only [wordAluI, append_toNat, BitVec.toNat_ofNat]; omega

theorem wordJsr_toNat (flag : BitVec 1) (l : BitVec 11) :
    (wordJsr flag l).toNat = 16384 + flag.toNat * 2048 + l.toNat := by
  have : (opcodeNumber .jsr).toNat = 4 := rfl
  simp only [wordJsr, append_toNat, this]; omega

theorem wordTrap_toNat (vect : BitVec 8) : (wordTrap vect).toNat = 61440 + vect.toNat := by
  have : (opcodeNumber .trap).toNat = 15 := rfl
  simp only [wordTrap, append_toNat, this, BitVec.toNat_ofNat]; omega

theorem wordNone_toNat : (wordNone op).toNat = (opcodeNumber op).toNat * 4096 := by
  simp only [wordNone, append_toNat, BitVec.toNat_ofNat]; omega

end Formats

/-! The fields of a word of each format. -/

section Fields

variable (op : Opcode) (high : BitVec 3) (dr mid low : Reg)

/-- Two fields are equal when their numbers are. -/
theorem field_eq {w : Word} {lo len : Nat} {v : BitVec len} (h : w.toNat / 2 ^ lo % 2 ^ len = v.toNat) :
    w.extractLsb' lo len = v :=
  BitVec.eq_of_toNat_eq ((field_toNat w lo len).trans h)

@[simp] theorem fieldOpcode_wordOff9 (off9 : BitVec 9) :
    fieldOpcode (wordOff9 op high off9) = opcodeNumber op :=
  field_eq (by rw [wordOff9_toNat]; omega)
@[simp] theorem fieldHigh3_wordOff9 (off9 : BitVec 9) : fieldHigh3 (wordOff9 op high off9) = high :=
  field_eq (by rw [wordOff9_toNat]; omega)
@[simp] theorem fieldOff9_wordOff9 (off9 : BitVec 9) : fieldOff9 (wordOff9 op high off9) = off9 :=
  field_eq (by rw [wordOff9_toNat]; omega)

@[simp] theorem fieldOpcode_wordBase (l : BitVec 6) :
    fieldOpcode (wordBase op high mid l) = opcodeNumber op :=
  field_eq (by rw [wordBase_toNat]; omega)
@[simp] theorem fieldHigh3_wordBase (l : BitVec 6) : fieldHigh3 (wordBase op high mid l) = high :=
  field_eq (by rw [wordBase_toNat]; omega)
@[simp] theorem fieldMid3_wordBase (l : BitVec 6) : fieldMid3 (wordBase op high mid l) = regIndex mid :=
  field_eq (by rw [wordBase_toNat]; omega)
@[simp] theorem fieldOff6_wordBase (l : BitVec 6) : fieldOff6 (wordBase op high mid l) = l :=
  field_eq (by rw [wordBase_toNat]; omega)

@[simp] theorem fieldOpcode_wordAluR : fieldOpcode (wordAluR op dr mid low) = opcodeNumber op :=
  field_eq (by rw [wordAluR_toNat]; omega)
@[simp] theorem fieldHigh3_wordAluR : fieldHigh3 (wordAluR op dr mid low) = regIndex dr :=
  field_eq (by rw [wordAluR_toNat]; omega)
@[simp] theorem fieldMid3_wordAluR : fieldMid3 (wordAluR op dr mid low) = regIndex mid :=
  field_eq (by rw [wordAluR_toNat]; omega)
@[simp] theorem fieldLow3_wordAluR : fieldLow3 (wordAluR op dr mid low) = regIndex low :=
  field_eq (by rw [wordAluR_toNat]; omega)
@[simp] theorem fieldImmFlag_wordAluR : fieldImmFlag (wordAluR op dr mid low) = 0#1 :=
  field_eq (by rw [wordAluR_toNat, BitVec.toNat_ofNat]; omega)

@[simp] theorem fieldOpcode_wordAluI (imm5 : BitVec 5) :
    fieldOpcode (wordAluI op dr mid imm5) = opcodeNumber op :=
  field_eq (by rw [wordAluI_toNat]; omega)
@[simp] theorem fieldHigh3_wordAluI (imm5 : BitVec 5) : fieldHigh3 (wordAluI op dr mid imm5) = regIndex dr :=
  field_eq (by rw [wordAluI_toNat]; omega)
@[simp] theorem fieldMid3_wordAluI (imm5 : BitVec 5) : fieldMid3 (wordAluI op dr mid imm5) = regIndex mid :=
  field_eq (by rw [wordAluI_toNat]; omega)
@[simp] theorem fieldImm5_wordAluI (imm5 : BitVec 5) : fieldImm5 (wordAluI op dr mid imm5) = imm5 :=
  field_eq (by rw [wordAluI_toNat]; omega)
@[simp] theorem fieldImmFlag_wordAluI (imm5 : BitVec 5) : fieldImmFlag (wordAluI op dr mid imm5) = 1#1 :=
  field_eq (by rw [wordAluI_toNat, BitVec.toNat_ofNat]; omega)

@[simp] theorem fieldOpcode_wordJsr (flag : BitVec 1) (l : BitVec 11) :
    fieldOpcode (wordJsr flag l) = opcodeNumber .jsr :=
  field_eq (by have : (opcodeNumber .jsr).toNat = 4 := rfl
               rw [wordJsr_toNat, this]; omega)
@[simp] theorem fieldJsrFlag_wordJsr (flag : BitVec 1) (l : BitVec 11) : fieldJsrFlag (wordJsr flag l) = flag :=
  field_eq (by rw [wordJsr_toNat]; omega)
@[simp] theorem fieldOff11_wordJsr (flag : BitVec 1) (l : BitVec 11) : fieldOff11 (wordJsr flag l) = l :=
  field_eq (by rw [wordJsr_toNat]; omega)
/-- The base register of a JSRR word. -/
@[simp] theorem fieldMid3_wordJsr (flag : BitVec 1) :
    fieldMid3 (wordJsr flag (0#2 ++ regIndex mid ++ 0#6)) = regIndex mid :=
  field_eq (by rw [wordJsr_toNat]; simp only [append_toNat, BitVec.toNat_ofNat]; omega)

@[simp] theorem fieldOpcode_wordTrap (vect : BitVec 8) : fieldOpcode (wordTrap vect) = opcodeNumber .trap :=
  field_eq (by have : (opcodeNumber .trap).toNat = 15 := rfl
               rw [wordTrap_toNat, this]; omega)
@[simp] theorem fieldVect_wordTrap (vect : BitVec 8) : fieldVect (wordTrap vect) = vect :=
  field_eq (by rw [wordTrap_toNat]; omega)

@[simp] theorem fieldOpcode_wordNone : fieldOpcode (wordNone op) = opcodeNumber op :=
  field_eq (by rw [wordNone_toNat]; omega)

end Fields

/-- A vector that no named row takes is the generic TRAP. -/
theorem trapOf_undefined {vect : BitVec 8} (h : definedVector vect = false) : trapOf vect = .trap vect := by
  revert vect; decide

end Sys2Proof
end

