-- ==== Sys2Proof/Laws/State.lean ====
section
/-! SUPPORT. One lemma per field per update of the state, each true by rfl, so that no later proof unfolds a
record update; then the same for the two views `reg` and `peek`. -/

namespace Sys2Proof.Machine

variable (s : State)

/-! `State.setReg` -/

@[simp] theorem State.setReg_regs (r : Reg) (v : Word) : (s.setReg r v).regs = s.regs.set r v := rfl
@[simp] theorem State.setReg_pc (r : Reg) (v : Word) : (s.setReg r v).pc = s.pc := rfl
@[simp] theorem State.setReg_cond (r : Reg) (v : Word) : (s.setReg r v).cond = s.cond := rfl
@[simp] theorem State.setReg_mem (r : Reg) (v : Word) : (s.setReg r v).mem = s.mem := rfl
@[simp] theorem State.setReg_inpos (r : Reg) (v : Word) : (s.setReg r v).inpos = s.inpos := rfl
@[simp] theorem State.setReg_out (r : Reg) (v : Word) : (s.setReg r v).out = s.out := rfl
@[simp] theorem State.setReg_run (r : Reg) (v : Word) : (s.setReg r v).run = s.run := rfl
@[simp] theorem State.setReg_cause (r : Reg) (v : Word) : (s.setReg r v).cause = s.cause := rfl
@[simp] theorem State.setReg_input (r : Reg) (v : Word) : (s.setReg r v).input = s.input := rfl
@[simp] theorem State.setReg_cfg (r : Reg) (v : Word) : (s.setReg r v).cfg = s.cfg := rfl
@[simp] theorem State.setReg_peek (r : Reg) (v : Word) (q : Word) : (s.setReg r v).peek q = s.peek q := rfl

/-! `State.setPc` -/

@[simp] theorem State.setPc_regs (v : Word) : (s.setPc v).regs = s.regs := rfl
@[simp] theorem State.setPc_pc (v : Word) : (s.setPc v).pc = v := rfl
@[simp] theorem State.setPc_cond (v : Word) : (s.setPc v).cond = s.cond := rfl
@[simp] theorem State.setPc_mem (v : Word) : (s.setPc v).mem = s.mem := rfl
@[simp] theorem State.setPc_inpos (v : Word) : (s.setPc v).inpos = s.inpos := rfl
@[simp] theorem State.setPc_out (v : Word) : (s.setPc v).out = s.out := rfl
@[simp] theorem State.setPc_run (v : Word) : (s.setPc v).run = s.run := rfl
@[simp] theorem State.setPc_cause (v : Word) : (s.setPc v).cause = s.cause := rfl
@[simp] theorem State.setPc_input (v : Word) : (s.setPc v).input = s.input := rfl
@[simp] theorem State.setPc_cfg (v : Word) : (s.setPc v).cfg = s.cfg := rfl
@[simp] theorem State.setPc_reg (v : Word) (q : Reg) : (s.setPc v).reg q = s.reg q := rfl
@[simp] theorem State.setPc_peek (v : Word) (q : Word) : (s.setPc v).peek q = s.peek q := rfl

/-! `State.setCond` -/

@[simp] theorem State.setCond_regs (v : BitVec 3) : (s.setCond v).regs = s.regs := rfl
@[simp] theorem State.setCond_pc (v : BitVec 3) : (s.setCond v).pc = s.pc := rfl
@[simp] theorem State.setCond_cond (v : BitVec 3) : (s.setCond v).cond = v := rfl
@[simp] theorem State.setCond_mem (v : BitVec 3) : (s.setCond v).mem = s.mem := rfl
@[simp] theorem State.setCond_inpos (v : BitVec 3) : (s.setCond v).inpos = s.inpos := rfl
@[simp] theorem State.setCond_out (v : BitVec 3) : (s.setCond v).out = s.out := rfl
@[simp] theorem State.setCond_run (v : BitVec 3) : (s.setCond v).run = s.run := rfl
@[simp] theorem State.setCond_cause (v : BitVec 3) : (s.setCond v).cause = s.cause := rfl
@[simp] theorem State.setCond_input (v : BitVec 3) : (s.setCond v).input = s.input := rfl
@[simp] theorem State.setCond_cfg (v : BitVec 3) : (s.setCond v).cfg = s.cfg := rfl
@[simp] theorem State.setCond_reg (v : BitVec 3) (q : Reg) : (s.setCond v).reg q = s.reg q := rfl
@[simp] theorem State.setCond_peek (v : BitVec 3) (q : Word) : (s.setCond v).peek q = s.peek q := rfl

/-! `State.setRun` -/

@[simp] theorem State.setRun_regs (v : RunState) : (s.setRun v).regs = s.regs := rfl
@[simp] theorem State.setRun_pc (v : RunState) : (s.setRun v).pc = s.pc := rfl
@[simp] theorem State.setRun_cond (v : RunState) : (s.setRun v).cond = s.cond := rfl
@[simp] theorem State.setRun_mem (v : RunState) : (s.setRun v).mem = s.mem := rfl
@[simp] theorem State.setRun_inpos (v : RunState) : (s.setRun v).inpos = s.inpos := rfl
@[simp] theorem State.setRun_out (v : RunState) : (s.setRun v).out = s.out := rfl
@[simp] theorem State.setRun_run (v : RunState) : (s.setRun v).run = v := rfl
@[simp] theorem State.setRun_cause (v : RunState) : (s.setRun v).cause = s.cause := rfl
@[simp] theorem State.setRun_input (v : RunState) : (s.setRun v).input = s.input := rfl
@[simp] theorem State.setRun_cfg (v : RunState) : (s.setRun v).cfg = s.cfg := rfl
@[simp] theorem State.setRun_reg (v : RunState) (q : Reg) : (s.setRun v).reg q = s.reg q := rfl
@[simp] theorem State.setRun_peek (v : RunState) (q : Word) : (s.setRun v).peek q = s.peek q := rfl

/-! `State.advance` -/

@[simp] theorem State.advance_regs : (s.advance).regs = s.regs := rfl
@[simp] theorem State.advance_pc : (s.advance).pc = s.pc := rfl
@[simp] theorem State.advance_cond : (s.advance).cond = s.cond := rfl
@[simp] theorem State.advance_mem : (s.advance).mem = s.mem := rfl
@[simp] theorem State.advance_inpos : (s.advance).inpos = s.inpos + 1 := rfl
@[simp] theorem State.advance_out : (s.advance).out = s.out := rfl
@[simp] theorem State.advance_run : (s.advance).run = s.run := rfl
@[simp] theorem State.advance_cause : (s.advance).cause = s.cause := rfl
@[simp] theorem State.advance_input : (s.advance).input = s.input := rfl
@[simp] theorem State.advance_cfg : (s.advance).cfg = s.cfg := rfl
@[simp] theorem State.advance_reg (q : Reg) : (s.advance).reg q = s.reg q := rfl
@[simp] theorem State.advance_peek (q : Word) : (s.advance).peek q = s.peek q := rfl

/-! `State.emit` -/

@[simp] theorem State.emit_regs (codes : List Word) : (s.emit codes).regs = s.regs := rfl
@[simp] theorem State.emit_pc (codes : List Word) : (s.emit codes).pc = s.pc := rfl
@[simp] theorem State.emit_cond (codes : List Word) : (s.emit codes).cond = s.cond := rfl
@[simp] theorem State.emit_mem (codes : List Word) : (s.emit codes).mem = s.mem := rfl
@[simp] theorem State.emit_inpos (codes : List Word) : (s.emit codes).inpos = s.inpos := rfl
@[simp] theorem State.emit_out (codes : List Word) : (s.emit codes).out = s.out ++ codes := rfl
@[simp] theorem State.emit_run (codes : List Word) : (s.emit codes).run = s.run := rfl
@[simp] theorem State.emit_cause (codes : List Word) : (s.emit codes).cause = s.cause := rfl
@[simp] theorem State.emit_input (codes : List Word) : (s.emit codes).input = s.input := rfl
@[simp] theorem State.emit_cfg (codes : List Word) : (s.emit codes).cfg = s.cfg := rfl
@[simp] theorem State.emit_reg (codes : List Word) (q : Reg) : (s.emit codes).reg q = s.reg q := rfl
@[simp] theorem State.emit_peek (codes : List Word) (q : Word) : (s.emit codes).peek q = s.peek q := rfl

/-! `State.raise` -/

@[simp] theorem State.raise_regs (c : Cause) : (s.raise c).regs = s.regs := rfl
@[simp] theorem State.raise_pc (c : Cause) : (s.raise c).pc = s.pc := rfl
@[simp] theorem State.raise_cond (c : Cause) : (s.raise c).cond = s.cond := rfl
@[simp] theorem State.raise_mem (c : Cause) : (s.raise c).mem = s.mem := rfl
@[simp] theorem State.raise_inpos (c : Cause) : (s.raise c).inpos = s.inpos := rfl
@[simp] theorem State.raise_out (c : Cause) : (s.raise c).out = s.out := rfl
@[simp] theorem State.raise_run (c : Cause) : (s.raise c).run = .faulted := rfl
@[simp] theorem State.raise_cause (c : Cause) : (s.raise c).cause = c := rfl
@[simp] theorem State.raise_input (c : Cause) : (s.raise c).input = s.input := rfl
@[simp] theorem State.raise_cfg (c : Cause) : (s.raise c).cfg = s.cfg := rfl
@[simp] theorem State.raise_reg (c : Cause) (q : Reg) : (s.raise c).reg q = s.reg q := rfl
@[simp] theorem State.raise_peek (c : Cause) (q : Word) : (s.raise c).peek q = s.peek q := rfl

/-! `State.poke` -/

@[simp] theorem State.poke_regs (a v : Word) : (s.poke a v).regs = s.regs := rfl
@[simp] theorem State.poke_pc (a v : Word) : (s.poke a v).pc = s.pc := rfl
@[simp] theorem State.poke_cond (a v : Word) : (s.poke a v).cond = s.cond := rfl
@[simp] theorem State.poke_mem (a v : Word) : (s.poke a v).mem = Memory.put s.mem a.toNat v := rfl
@[simp] theorem State.poke_inpos (a v : Word) : (s.poke a v).inpos = s.inpos := rfl
@[simp] theorem State.poke_out (a v : Word) : (s.poke a v).out = s.out := rfl
@[simp] theorem State.poke_run (a v : Word) : (s.poke a v).run = s.run := rfl
@[simp] theorem State.poke_cause (a v : Word) : (s.poke a v).cause = s.cause := rfl
@[simp] theorem State.poke_input (a v : Word) : (s.poke a v).input = s.input := rfl
@[simp] theorem State.poke_cfg (a v : Word) : (s.poke a v).cfg = s.cfg := rfl
@[simp] theorem State.poke_reg (a v : Word) (q : Reg) : (s.poke a v).reg q = s.reg q := rfl

/-! The register file. -/

/-- Reading a file after a write: the written register has the value, every other keeps its own. -/
theorem Regs.get_set (f : Regs) (r q : Reg) (v : Word) : (f.set r v).get q = if q = r then v else f.get q := by
  cases r <;> cases q <;> rfl

/-- Two register files that read alike are equal. -/
theorem Regs.ext_get {f g : Regs} (h : ∀ r, f.get r = g.get r) : f = g := by
  cases f; cases g
  simp only [Regs.mk.injEq]
  exact ⟨h .r0, h .r1, h .r2, h .r3, h .r4, h .r5, h .r6, h .r7⟩

/-- `R[q]` after `R[r] <- v`. -/
theorem State.setReg_reg (r q : Reg) (v : Word) : (s.setReg r v).reg q = if q = r then v else s.reg q :=
  Regs.get_set s.regs r q v

@[simp] theorem State.setReg_reg_same (r : Reg) (v : Word) : (s.setReg r v).reg r = v := by
  simp [State.setReg_reg]

theorem State.setReg_reg_other {r q : Reg} (v : Word) (h : q ≠ r) : (s.setReg r v).reg q = s.reg q := by
  simp [State.setReg_reg, h]

end Sys2Proof.Machine
end

