-- ==== Sys2Proof/Laws/Memory.lean ====
section
/-! SUPPORT. The laws of the memory list: read after write, the canonical form is kept, and a canonical list is
determined by what it reads as. -/

namespace Sys2Proof.Machine

/-- The parts of the canonical form of a list that is not empty. -/
theorem Memory.wfFrom_cons {lo b : Nat} {w : Word} {rest : Memory} :
    Memory.wfFrom lo ((b, w) :: rest) = true ↔
      lo ≤ b ∧ b < memoryWords ∧ w ≠ unlistedWord ∧ Memory.wfFrom (b + 1) rest = true := by
  simp [Memory.wfFrom, and_assoc]

/-- The canonical form from a later address is the canonical form from an earlier one. -/
theorem Memory.wfFrom_mono {lo lo' : Nat} {m : Memory} (h : Memory.wfFrom lo m = true) (hle : lo' ≤ lo) :
    Memory.wfFrom lo' m = true := by
  cases m with
  | nil => rfl
  | cons c rest =>
    rw [Memory.wfFrom_cons] at h ⊢
    exact ⟨by omega, h.2⟩

/-- What a canonical list reads as below its first possible address. -/
theorem Memory.get_below {m : Memory} {lo a : Nat} (h : Memory.wfFrom lo m = true) (ha : a < lo) :
    Memory.get m a = unlistedWord := by
  induction m generalizing lo with
  | nil => rfl
  | cons c rest ih =>
    obtain ⟨b, w⟩ := c
    rw [Memory.wfFrom_cons] at h
    have hne : a ≠ b := by omega
    simp only [Memory.get, hne, if_false]
    exact ih h.2.2.2 (by omega)

/-- Read after write at the written address. -/
theorem Memory.get_put_same {m : Memory} {lo : Nat} (a : Nat) (v : Word) (h : Memory.wfFrom lo m = true) :
    Memory.get (Memory.put m a v) a = v := by
  induction m generalizing lo with
  | nil => by_cases hv : v = unlistedWord <;> simp [Memory.put, Memory.get, hv]
  | cons c rest ih =>
    obtain ⟨b, w⟩ := c
    have hr := (Memory.wfFrom_cons.mp h).2.2.2
    rcases Nat.lt_trichotomy a b with hlt | rfl | hgt
    · have hne : a ≠ b := by omega
      by_cases hv : v = unlistedWord
      · simp only [Memory.put, hlt, hv, if_true, Memory.get, hne, if_false]
        exact Memory.get_below hr (by omega)
      · simp [Memory.put, Memory.get, hlt, hv]
    · by_cases hv : v = unlistedWord
      · simp only [Memory.put, lt_irrefl, hv, if_true, if_false]
        exact Memory.get_below hr (by omega)
      · simp [Memory.put, Memory.get, hv]
    · have h1 : ¬ a < b := by omega
      have h2 : a ≠ b := by omega
      simp only [Memory.put, h1, h2, if_false, Memory.get]
      exact ih hr

/-- A store leaves every other address alone, whatever the list. -/
theorem Memory.get_put_other (m : Memory) {a q : Nat} (v : Word) (hq : q ≠ a) :
    Memory.get (Memory.put m a v) q = Memory.get m q := by
  induction m with
  | nil => by_cases hv : v = unlistedWord <;> simp [Memory.put, Memory.get, hv, hq]
  | cons c rest ih =>
    obtain ⟨b, w⟩ := c
    rcases Nat.lt_trichotomy a b with hlt | rfl | hgt
    · by_cases hv : v = unlistedWord <;> simp [Memory.put, Memory.get, hlt, hv, hq]
    · by_cases hv : v = unlistedWord <;> simp [Memory.put, Memory.get, hv, hq]
    · have h1 : ¬ a < b := by omega
      have h2 : a ≠ b := by omega
      simp only [Memory.put, h1, h2, if_false, Memory.get, ih]

/-- A store at or above `lo` keeps the canonical form from `lo` on. -/
theorem Memory.wfFrom_put {m : Memory} {lo a : Nat} (v : Word) (h : Memory.wfFrom lo m = true) (hlo : lo ≤ a)
    (ha : a < memoryWords) : Memory.wfFrom lo (Memory.put m a v) = true := by
  induction m generalizing lo with
  | nil =>
    by_cases hv : v = unlistedWord
    · simp [Memory.put, hv, Memory.wfFrom]
    · simp only [Memory.put, hv, if_false]
      exact Memory.wfFrom_cons.mpr ⟨hlo, ha, hv, rfl⟩
  | cons c rest ih =>
    obtain ⟨b, w⟩ := c
    obtain ⟨hb, hbm, hw, hr⟩ := Memory.wfFrom_cons.mp h
    rcases Nat.lt_trichotomy a b with hlt | rfl | hgt
    · by_cases hv : v = unlistedWord
      · simpa only [Memory.put, hlt, hv, if_true] using h
      · simp only [Memory.put, hlt, hv, if_true, if_false]
        exact Memory.wfFrom_cons.mpr ⟨hlo, ha, hv, Memory.wfFrom_cons.mpr ⟨hlt, hbm, hw, hr⟩⟩
    · by_cases hv : v = unlistedWord
      · simp only [Memory.put, lt_irrefl, hv, if_true, if_false]
        exact Memory.wfFrom_mono hr (by omega)
      · simp only [Memory.put, lt_irrefl, hv, if_true, if_false]
        exact Memory.wfFrom_cons.mpr ⟨hb, hbm, hv, hr⟩
    · have h1 : ¬ a < b := by omega
      have h2 : a ≠ b := by omega
      simp only [Memory.put, h1, h2, if_false]
      exact Memory.wfFrom_cons.mpr ⟨hb, hbm, hw, ih hr (by omega)⟩

/-- Every store keeps the canonical form. -/
theorem Memory.wf_put {m : Memory} (a v : Word) (h : Memory.wf m = true) :
    Memory.wf (Memory.put m a.toNat v) = true :=
  Memory.wfFrom_put v h (Nat.zero_le _) a.isLt

/-- `MEM[q]` after `MEM[a] <- v`, for a canonical memory. -/
theorem State.poke_peek {s : State} (a q v : Word) (h : Memory.wf s.mem = true) :
    (s.poke a v).peek q = if q = a then v else s.peek q := by
  by_cases hq : q = a
  · subst hq
    simp only [State.peek, State.poke_mem, if_true]
    exact Memory.get_put_same _ v h
  · have : q.toNat ≠ a.toNat := fun h => hq (BitVec.eq_of_toNat_eq h)
    simp only [State.peek, State.poke_mem, hq, if_false]
    exact Memory.get_put_other s.mem v this

/-- `MEM[a]` after `MEM[a] <- v`, for a canonical memory. -/
theorem State.poke_peek_same {s : State} (a v : Word) (h : Memory.wf s.mem = true) : (s.poke a v).peek a = v := by
  simp [State.poke_peek a a v h]

/-- `MEM[q]` after `MEM[a] <- v`, for another address, whatever the memory. -/
theorem State.poke_peek_other (s : State) {a q : Word} (v : Word) (hq : q ≠ a) :
    (s.poke a v).peek q = s.peek q := by
  have : q.toNat ≠ a.toNat := fun h => hq (BitVec.eq_of_toNat_eq h)
  simp only [State.peek, State.poke_mem]
  exact Memory.get_put_other s.mem v this

/-- The image load keeps the canonical form (70_reset_and_hazards.md R334). -/
theorem State.loadWords_wf (ws : List Word) (s : State) (a : Word) (h : Memory.wf s.mem = true) :
    Memory.wf (s.loadWords a ws).mem = true := by
  induction ws generalizing s a with
  | nil => exact h
  | cons w rest ih => exact ih (s.poke a w) (add16 a 1#16) (Memory.wf_put a w h)

end Sys2Proof.Machine
end

