-- ==== Sys2Proof/Laws/Ops.lean ====
section
/-! SUPPORT. What each shared operation can do, said once: the input primitive, the device-aware read, the
result of a flag-writing instruction, and the string walk. -/

namespace Sys2Proof.Machine

/-! The input (00_scope.md R22). -/

/-- `InNext` with a character left. -/
theorem State.inNext_available {s : State} (h : s.inpos < s.input.length) :
    s.inNext = some (s.input[s.inpos], s.advance) := by
  simp [State.inNext, h]

/-- `InNext` with the input exhausted. -/
theorem State.inNext_exhausted {s : State} (h : s.input.length ≤ s.inpos) : s.inNext = none := by
  simp [State.inNext, h]

/-- A status read with a character left. -/
theorem State.pollKeyboard_available {s : State} (h : s.inpos < s.input.length) :
    s.pollKeyboard =
      (s.advance.poke s.cfg.kbsrAddr kbsrReady).poke s.cfg.kbdrAddr (zext8 s.input[s.inpos]) := by
  simp [State.pollKeyboard, State.inNext_available h]

/-- A status read with the input exhausted. -/
theorem State.pollKeyboard_exhausted {s : State} (h : s.input.length ≤ s.inpos) :
    s.pollKeyboard = s.poke s.cfg.kbsrAddr kbsrNotReady := by
  simp [State.pollKeyboard, State.inNext_exhausted h]

/-- A status read only rewrites memory and moves the cursor: this much is true in both cases. -/
theorem State.pollKeyboard_shape (s : State) :
    ∃ m n, s.pollKeyboard = { s with mem := m, inpos := n } := by
  rcases Nat.lt_or_ge s.inpos s.input.length with h | h
  · exact ⟨_, _, State.pollKeyboard_available h⟩
  · exact ⟨_, _, State.pollKeyboard_exhausted h⟩

/-! The device-aware read (20_memory.md R74). -/

/-- A read anywhere but at the status address changes nothing. -/
theorem State.afterRead_plain {s : State} {a : Word} (h : a ≠ s.cfg.kbsrAddr) : s.afterRead a = s := by
  simp [State.afterRead, h]

/-- A read anywhere but at the status address returns the stored word. -/
theorem State.readWord_plain {s : State} {a : Word} (h : a ≠ s.cfg.kbsrAddr) : s.readWord a = s.peek a := by
  simp [State.readWord, State.afterRead_plain h]

/-- A read at the status address is a poll. -/
theorem State.afterRead_status (s : State) : s.afterRead s.cfg.kbsrAddr = s.pollKeyboard := by
  simp [State.afterRead]

/-- A read only rewrites memory and moves the cursor. -/
theorem State.afterRead_shape (s : State) (a : Word) :
    ∃ m n, s.afterRead a = { s with mem := m, inpos := n } := by
  by_cases h : a = s.cfg.kbsrAddr
  · subst h
    rw [State.afterRead_status]
    exact State.pollKeyboard_shape s
  · exact ⟨s.mem, s.inpos, State.afterRead_plain h⟩

@[simp] theorem State.afterRead_regs (s : State) (a : Word) : (s.afterRead a).regs = s.regs := by
  obtain ⟨m, n, h⟩ := State.afterRead_shape s a; rw [h]
@[simp] theorem State.afterRead_reg (s : State) (a : Word) (r : Reg) : (s.afterRead a).reg r = s.reg r := by
  simp [State.reg]
@[simp] theorem State.afterRead_pc (s : State) (a : Word) : (s.afterRead a).pc = s.pc := by
  obtain ⟨m, n, h⟩ := State.afterRead_shape s a; rw [h]
@[simp] theorem State.afterRead_cond (s : State) (a : Word) : (s.afterRead a).cond = s.cond := by
  obtain ⟨m, n, h⟩ := State.afterRead_shape s a; rw [h]
@[simp] theorem State.afterRead_out (s : State) (a : Word) : (s.afterRead a).out = s.out := by
  obtain ⟨m, n, h⟩ := State.afterRead_shape s a; rw [h]
@[simp] theorem State.afterRead_run (s : State) (a : Word) : (s.afterRead a).run = s.run := by
  obtain ⟨m, n, h⟩ := State.afterRead_shape s a; rw [h]
@[simp] theorem State.afterRead_cause (s : State) (a : Word) : (s.afterRead a).cause = s.cause := by
  obtain ⟨m, n, h⟩ := State.afterRead_shape s a; rw [h]
@[simp] theorem State.afterRead_input (s : State) (a : Word) : (s.afterRead a).input = s.input := by
  obtain ⟨m, n, h⟩ := State.afterRead_shape s a; rw [h]
@[simp] theorem State.afterRead_cfg (s : State) (a : Word) : (s.afterRead a).cfg = s.cfg := by
  obtain ⟨m, n, h⟩ := State.afterRead_shape s a; rw [h]

/-- A read leaves every word but the two keyboard words alone. -/
theorem State.afterRead_peek_other (s : State) (a : Word) {q : Word} (h1 : q ≠ s.cfg.kbsrAddr)
    (h2 : q ≠ s.cfg.kbdrAddr) : (s.afterRead a).peek q = s.peek q := by
  by_cases h : a = s.cfg.kbsrAddr
  · subst h
    rw [State.afterRead_status]
    rcases Nat.lt_or_ge s.inpos s.input.length with hl | hl
    · rw [State.pollKeyboard_available hl, State.poke_peek_other _ _ h2, State.poke_peek_other _ _ h1,
        State.advance_peek]
    · rw [State.pollKeyboard_exhausted hl, State.poke_peek_other _ _ h1]
  · rw [State.afterRead_plain h]

/-- A read keeps the canonical form of memory. -/
theorem State.afterRead_wf {s : State} (a : Word) (h : Memory.wf s.mem = true) :
    Memory.wf (s.afterRead a).mem = true := by
  by_cases ha : a = s.cfg.kbsrAddr
  · subst ha
    rw [State.afterRead_status]
    rcases Nat.lt_or_ge s.inpos s.input.length with hl | hl
    · rw [State.pollKeyboard_available hl]
      exact Memory.wf_put _ _ (Memory.wf_put _ _ h)
    · rw [State.pollKeyboard_exhausted hl]
      exact Memory.wf_put _ _ h
  · rwa [State.afterRead_plain ha]

/-- The cursor after a read: one further exactly when the status word is read with a character left. -/
theorem State.afterRead_inpos (s : State) (a : Word) :
    (s.afterRead a).inpos =
      if a = s.cfg.kbsrAddr ∧ s.inpos < s.input.length then s.inpos + 1 else s.inpos := by
  by_cases h : a = s.cfg.kbsrAddr
  · subst h
    rw [State.afterRead_status]
    rcases Nat.lt_or_ge s.inpos s.input.length with hl | hl
    · simp [State.pollKeyboard_available hl, hl]
    · simp [State.pollKeyboard_exhausted hl, Nat.not_lt.mpr hl]
  · simp [State.afterRead_plain h, h]

/-- A read never moves the cursor back. -/
theorem State.afterRead_inpos_le (s : State) (a : Word) : s.inpos ≤ (s.afterRead a).inpos := by
  rw [State.afterRead_inpos]; split <;> omega

/-- A read keeps the cursor in its range. -/
theorem State.afterRead_cursor {s : State} (a : Word) (h : s.inpos ≤ s.input.length) :
    (s.afterRead a).inpos ≤ s.input.length := by
  rw [State.afterRead_inpos]; split <;> omega

/-- The status word that a status read returns when the input is exhausted. -/
theorem State.readWord_exhausted {s : State} (hwf : Memory.wf s.mem = true) (h : s.input.length ≤ s.inpos) :
    s.readWord s.cfg.kbsrAddr = 0x0000#16 := by
  rw [State.readWord, State.afterRead_status, State.pollKeyboard_exhausted h, State.poke_peek_same _ _ hwf]
  rfl

/-! The result of a flag-writing instruction (10_state.md R42, R43). -/

section Result

variable (s : State) (dr : Reg) (v : Word)

@[simp] theorem State.writeResult_reg_same : (s.writeResult dr v).reg dr = v := by
  simp [State.writeResult, State.setCC]
theorem State.writeResult_reg_other {q : Reg} (h : q ≠ dr) : (s.writeResult dr v).reg q = s.reg q := by
  simp [State.writeResult, State.setCC, State.setReg_reg_other, h]
@[simp] theorem State.writeResult_cond : (s.writeResult dr v).cond = condOf v := by
  simp [State.writeResult, State.setCC]
@[simp] theorem State.writeResult_pc : (s.writeResult dr v).pc = s.pc := rfl
@[simp] theorem State.writeResult_mem : (s.writeResult dr v).mem = s.mem := rfl
@[simp] theorem State.writeResult_peek (a : Word) : (s.writeResult dr v).peek a = s.peek a := rfl
@[simp] theorem State.writeResult_inpos : (s.writeResult dr v).inpos = s.inpos := rfl
@[simp] theorem State.writeResult_out : (s.writeResult dr v).out = s.out := rfl
@[simp] theorem State.writeResult_run : (s.writeResult dr v).run = s.run := rfl
@[simp] theorem State.writeResult_cause : (s.writeResult dr v).cause = s.cause := rfl
@[simp] theorem State.writeResult_input : (s.writeResult dr v).input = s.input := rfl
@[simp] theorem State.writeResult_cfg : (s.writeResult dr v).cfg = s.cfg := rfl

end Result

/-- COND for a value, as the number of R42. -/
theorem condOf_toNat (v : Word) : (condOf v).toNat = specCond v.toNat := by
  have hlt := v.isLt
  have hz : v = 0x0000#16 ↔ v.toNat = 0 := by
    constructor
    · rintro rfl; rfl
    · intro h; exact BitVec.eq_of_toNat_eq h
  have hm : v[15] = decide (32768 ≤ v.toNat) := by
    have := BitVec.msb_eq_decide v
    simpa [BitVec.msb_eq_getLsbD_last] using this
  unfold condOf specCond
  by_cases h0 : v.toNat = 0
  · simp [hz.mpr h0, condZro]
  · have h0' : ¬ v = 0x0000#16 := fun h => h0 (hz.mp h)
    simp only [h0, h0', if_false, hm, decide_eq_true_eq]
    split <;> rfl

/-- COND for a value is legal, and one-hot. -/
theorem condOf_legal (v : Word) : legalCond (condOf v) = true := by
  unfold condOf
  split
  · rfl
  · split <;> rfl

/-! The string walk (44_trap.md R244, R246, R248). -/

/-- A walk that answers has read what the relation says. -/
theorem stringWalk_sound {fuel : Nat} {a : Word} {s t : State} {ws : List Word}
    (h : stringWalk fuel a s = some (ws, t)) : StringRead s a ws t := by
  induction fuel generalizing a s ws with
  | zero => simp [stringWalk] at h
  | succ n ih =>
    rw [stringWalk] at h
    split at h
    · next hz =>
      cases h
      exact .stop s a hz
    · next hz =>
      split at h
      · next ws' t' hw =>
        cases h
        exact .more s t a ws' hz (ih hw)
      · cases h

/-- A string read has one result. -/
theorem StringRead.unique {s t t' : State} {a : Word} {ws ws' : List Word} (h : StringRead s a ws t)
    (h' : StringRead s a ws' t') : ws = ws' ∧ t = t' := by
  induction h generalizing ws' t' with
  | stop s a hz =>
    cases h' with
    | stop => exact ⟨rfl, rfl⟩
    | more _ _ _ _ hne => exact absurd hz hne
  | more s t a ws hne _ ih =>
    cases h' with
    | stop _ _ hz => exact absurd hz hne
    | more _ _ _ ws'' _ h'' =>
      obtain ⟨rfl, rfl⟩ := ih h''
      exact ⟨rfl, rfl⟩

/-- What is kept by one read is kept by the whole walk. -/
theorem StringRead.keeps {p : State → Prop} (hp : ∀ s a, p s → p (s.afterRead a)) {s t : State} {a : Word}
    {ws : List Word} (h : StringRead s a ws t) (hs : p s) : p t := by
  induction h with
  | stop s a _ => exact hp s a hs
  | more s t a ws _ _ ih => exact ih (hp s a hs)

/-- A walk only rewrites memory and moves the cursor. -/
theorem StringRead.shape {s t : State} {a : Word} {ws : List Word} (h : StringRead s a ws t) :
    ∃ m n, t = { s with mem := m, inpos := n } := by
  refine h.keeps (p := fun u => ∃ m n, u = { s with mem := m, inpos := n }) ?_ ⟨s.mem, s.inpos, rfl⟩
  rintro u b ⟨m, n, rfl⟩
  obtain ⟨m', n', hu⟩ := State.afterRead_shape { s with mem := m, inpos := n } b
  exact ⟨m', n', hu⟩

end Sys2Proof.Machine
end

