-- ==== Sys2Proof/Laws/StringWalk.lean ====
section
/-! SUPPORT. The string walk of PUTS and PUTSP always ends while INPUT is finite (44_trap.md R248(b)): every lap
of the address space reads the status word, which uses up a character or reads as zero. -/

namespace Sys2Proof.Machine

/-- How many further addresses the walk visits before it stands at the status address. -/
def distanceToStatus (s : State) (a : Word) : Nat := (s.cfg.kbsrAddr - a).toNat

/-- One address further on, away from the status address, the distance is one less. -/
theorem distanceToStatus_next {s : State} {a : Word} (h : a ≠ s.cfg.kbsrAddr) :
    distanceToStatus s (add16 a 1#16) + 1 = distanceToStatus s a := by
  have hne : a.toNat ≠ s.cfg.kbsrAddr.toNat := fun e => h (BitVec.eq_of_toNat_eq e)
  have h1 := a.isLt
  have h2 := s.cfg.kbsrAddr.isLt
  simp only [distanceToStatus, add16, BitVec.toNat_sub, BitVec.toNat_add, BitVec.toNat_ofNat]
  omega

/-- From the status address itself it is a whole lap to the next visit. -/
theorem distanceToStatus_wrap (s : State) : distanceToStatus s (add16 s.cfg.kbsrAddr 1#16) = 65535 := by
  have h2 := s.cfg.kbsrAddr.isLt
  simp only [distanceToStatus, add16, BitVec.toNat_sub, BitVec.toNat_add, BitVec.toNat_ofNat]
  omega

/-- Enough fuel for the laps that the remaining input allows, and for the way to the status address, is enough. -/
theorem stringWalk_enough {fuel : Nat} {a : Word} {s : State} (hwf : Memory.wf s.mem = true)
    (hf : memoryWords * (s.input.length - s.inpos) + distanceToStatus s a + 1 ≤ fuel) :
    ∃ ws t, stringWalk fuel a s = some (ws, t) := by
  induction fuel generalizing a s with
  | zero => omega
  | succ n ih =>
    rw [stringWalk]
    by_cases hz : s.readWord a = 0x0000#16
    · exact ⟨[], s.afterRead a, by simp [hz]⟩
    · have next : ∃ ws t, stringWalk n (add16 a 1#16) (s.afterRead a) = some (ws, t) := by
        refine ih (State.afterRead_wf a hwf) ?_
        rw [State.afterRead_input, State.afterRead_inpos]
        by_cases ha : a = s.cfg.kbsrAddr
        · subst ha
          have hl : s.inpos < s.input.length := by
            by_contra hge
            exact hz (State.readWord_exhausted hwf (Nat.not_lt.mp hge))
          have hd : distanceToStatus (s.afterRead s.cfg.kbsrAddr) (add16 s.cfg.kbsrAddr 1#16) = 65535 := by
            simpa [distanceToStatus] using distanceToStatus_wrap s
          simp only [hl, and_self, if_true, hd, memoryWords] at hf ⊢
          omega
        · have hd : distanceToStatus (s.afterRead a) (add16 a 1#16) + 1 = distanceToStatus s a := by
            simpa [distanceToStatus] using distanceToStatus_next ha
          simp only [ha, false_and, if_false]
          omega
      obtain ⟨ws, t, hw⟩ := next
      exact ⟨s.readWord a :: ws, t, by simp [hz, hw]⟩

/-- The walk of PUTS and PUTSP answers from every canonical memory, from every address. -/
theorem stringWalk_answers {s : State} (a : Word) (hwf : Memory.wf s.mem = true) :
    ∃ ws t, stringWalk s.walkFuel a s = some (ws, t) := by
  refine stringWalk_enough hwf ?_
  have hd : distanceToStatus s a < 65536 := (s.cfg.kbsrAddr - a).isLt
  simp only [State.walkFuel, memoryWords] at *
  omega

end Sys2Proof.Machine
end

