-- ==== Sys2Proof/Tests/Slice0.lean ====
section
/-! SUPPORT. Tests. Expected results come from the spec: words from the encodings of 30_encoding.md R114 to R124,
one-step results from the vectors of 95_test_vectors.md (named in each comment). `witness_` theorems show states and
operands that meet the hypotheses of the statement they name. -/

namespace Sys2Proof.Tests

open Sys2Proof.Machine

/-! ## Helpers -/

/-- One step on `s` with the word `w` at its PC; the next state satisfies `p`. -/
def runs (s : State) (w : Nat) (p : State → Bool) : Bool :=
  match step (s.withFetchWord 16 w) with
  | .next t => p t
  | _ => false

/-- One step on `s` as it is. -/
def steps (s : State) (p : State → Bool) : Bool :=
  match step s with
  | .next t => p t
  | _ => false

/-- Reset with the words `ws` in memory and the characters `cs` as input. -/
def withMem (ws : Memory) (cs : List Byte) : State := { State.reset with mem := ws, input := cs }

/-- The state that `o` answers, or `s`. -/
def nextOr (s : State) (o : Host.Outcome State Fault Refusal) : State :=
  match o with
  | .next t => t
  | _ => s

/-- The refusal that `o` answers, if it is one. -/
def refusal (o : Host.Outcome State Fault Refusal) : Option Refusal :=
  match o with
  | .refused r => some r
  | _ => none

/-- `o` is a next state. -/
def isNext (o : Host.Outcome State Fault Refusal) : Bool :=
  match o with
  | .next _ => true
  | _ => false

/-! ## Decoding: each constructor from a word written out bit by bit -/

theorem test_decode_br : decode 0b0000_101_000000011#16 = .br 0b101#3 3#9 := by decide
theorem test_decode_add_register : decode 0b0001_001_010_0_00_011#16 = .addR .r1 .r2 .r3 := by decide
theorem test_decode_add_immediate : decode 0b0001_011_100_1_10000#16 = .addI .r3 .r4 0b10000#5 := by decide
theorem test_decode_ld : decode 0b0010_010_111111111#16 = .ld .r2 0x1FF#9 := by decide
theorem test_decode_st : decode 0b0011_101_000000001#16 = .st .r5 1#9 := by decide
theorem test_decode_jsr : decode 0b0100_1_10000000000#16 = .jsr 0x400#11 := by decide
theorem test_decode_jsrr : decode 0b0100_0_00_011_000000#16 = .jsrr .r3 := by decide
theorem test_decode_and_register : decode 0b0101_000_001_0_00_010#16 = .andR .r0 .r1 .r2 := by decide
theorem test_decode_and_immediate : decode 0b0101_010_011_1_11111#16 = .andI .r2 .r3 0x1F#5 := by decide
theorem test_decode_ldr : decode 0b0110_001_010_100000#16 = .ldr .r1 .r2 0x20#6 := by decide
theorem test_decode_str : decode 0b0111_001_110_000100#16 = .str .r1 .r6 4#6 := by decide
theorem test_decode_rti : decode 0b1000_000000000000#16 = .rti := by decide
theorem test_decode_not : decode 0b1001_001_010_111111#16 = .not .r1 .r2 := by decide
theorem test_decode_ldi : decode 0b1010_011_000000001#16 = .ldi .r3 1#9 := by decide
theorem test_decode_sti : decode 0b1011_101_000000001#16 = .sti .r5 1#9 := by decide
theorem test_decode_jmp : decode 0b1100_000_111_000000#16 = .jmp .r7 := by decide
theorem test_decode_res : decode 0b1101_111111111111#16 = .res := by decide
theorem test_decode_lea : decode 0b1110_100_000000000#16 = .lea .r4 0#9 := by decide
theorem test_decode_getc : decode 0b1111_0000_00100000#16 = .getc := by decide
theorem test_decode_out : decode 0b1111_1010_00100001#16 = .out := by decide
theorem test_decode_puts : decode 0b1111_0000_00100010#16 = .puts := by decide
theorem test_decode_in : decode 0b1111_0000_00100011#16 = .inChar := by decide
theorem test_decode_putsp : decode 0b1111_0000_00100100#16 = .putsp := by decide
theorem test_decode_halt : decode 0b1111_1111_00100101#16 = .halt := by decide
theorem test_decode_trap : decode 0b1111_0000_00011111#16 = .trap 0x1F#8 := by decide

/-- The host's numbering: one word; a longer instruction does not exist (R110). -/
theorem test_decodeTableWord :
    decodeTableWord 16 0x7384 = some (.str .r1 .r6 4#6) ∧ decodeTableWord 32 0x7384 = none := by decide

/-! ## WellFormed smoke test: the generic TRAP with a vector of a named row is refused (the one check there is) -/

theorem test_illFormed_trap_getc : (Instr.trap 0x20#8).wellFormed = false := by decide
theorem test_illFormed_trap_halt : (Instr.trap 0x25#8).wellFormed = false := by decide
theorem test_wellFormed_trap_neighbours :
    (Instr.trap 0x1F#8).wellFormed = true ∧ (Instr.trap 0x26#8).wellFormed = true := by decide

/-! ## Operand forms (95_test_vectors.md T1) -/

theorem test_sext5 : sext5 0x10#5 = 0xFFF0#16 ∧ sext5 0x0F#5 = 0x000F#16 := by decide
theorem test_sext6 : sext6 0x20#6 = 0xFFE0#16 ∧ sext6 0x1F#6 = 0x001F#16 := by decide
theorem test_sext9 : sext9 0x100#9 = 0xFF00#16 ∧ sext9 0x0FF#9 = 0x00FF#16 := by decide
theorem test_sext11 : sext11 0x400#11 = 0xFC00#16 ∧ sext11 0x3FF#11 = 0x03FF#16 := by decide
theorem test_zext8 : zext8 0x80#8 = 0x0080#16 := by decide

/-! ## One step per instruction -/

/-- A1: signed overflow wraps. -/
theorem test_add_register_wraps :
    runs { State.reset with regs := ⟨0#16, 0x7FFF#16, 1#16, 0#16, 0#16, 0#16, 0#16, 0#16⟩ } 0x1042
      (fun t => t.reg .r0 == 0x8000#16 && t.cond == 0b100#3 && t.pc == 0x3001#16) = true := by decide

/-- A6: the most negative immediate. -/
theorem test_add_immediate_negative :
    runs { State.reset with regs := ⟨0#16, 0#16, 0#16, 7#16, 0x0010#16, 0#16, 0#16, 0#16⟩ } 0x1730
      (fun t => t.reg .r3 == 0#16 && t.cond == 0b010#3) = true := by decide

/-- A11. -/
theorem test_and_register :
    runs { State.reset with regs := ⟨0#16, 0xF0F0#16, 0xFF00#16, 0#16, 0#16, 0#16, 0#16, 0#16⟩ } 0x5042
      (fun t => t.reg .r0 == 0xF000#16 && t.cond == 0b100#3) = true := by decide

/-- A16: the immediate is extended before the AND. -/
theorem test_and_immediate_extends :
    runs { State.reset with regs := ⟨0#16, 0#16, 0#16, 0x12FF#16, 0#16, 0#16, 0#16, 0#16⟩ } 0x54F0
      (fun t => t.reg .r2 == 0x12F0#16 && t.cond == 0b001#3) = true := by decide

/-- A22: source and destination the same. -/
theorem test_not :
    runs { State.reset with regs := ⟨0#16, 0#16, 0#16, 0#16, 0x8000#16, 0#16, 0#16, 0#16⟩ } 0x993F
      (fun t => t.reg .r4 == 0x7FFF#16 && t.cond == 0b001#3) = true := by decide

/-- B3: taken, the largest backward offset. -/
theorem test_br_taken_backward :
    runs { State.reset with cond := 0b010#3 } 0x0700
      (fun t => t.pc == 0x2F01#16 && t.cond == 0b010#3 && t.reg .r7 == 0#16) = true := by decide

/-- B6: no branch while COND is 0b000. -/
theorem test_br_not_taken_at_reset : runs State.reset 0x0E05 (fun t => t.pc == 0x3001#16) = true := by decide

/-- B10: the unused bits of JMP are ignored. -/
theorem test_jmp :
    runs { State.reset with regs := ⟨0#16, 0#16, 0x1234#16, 0#16, 0#16, 0#16, 0#16, 0#16⟩ } 0xCEBF
      (fun t => t.pc == 0x1234#16 && t.reg .r7 == 0#16) = true := by decide

/-- B11: the most negative offset; the old R7 is lost. -/
theorem test_jsr :
    runs { State.reset with regs := ⟨0#16, 0#16, 0#16, 0#16, 0#16, 0#16, 0#16, 0xAAAA#16⟩ } 0x4C00
      (fun t => t.pc == 0x2C01#16 && t.reg .r7 == 0x3001#16) = true := by decide

/-- B15: R7 is saved before it is read. -/
theorem test_jsrr_r7_falls_through :
    runs { State.reset with regs := ⟨0#16, 0#16, 0#16, 0#16, 0#16, 0#16, 0#16, 0x4000#16⟩ } 0x41C0
      (fun t => t.pc == 0x3001#16 && t.reg .r7 == 0x3001#16) = true := by decide

/-- L4: the address wraps at the top of memory. -/
theorem test_ld_wraps :
    runs { withMem [(1, 0x0042#16)] [] with pc := 0xFFFF#16 } 0x2401
      (fun t => t.reg .r2 == 0x0042#16 && t.cond == 0b001#3 && t.pc == 0#16) = true := by decide

/-- L6: the datum is the status word, a character is delivered. -/
theorem test_ldi_polls :
    runs (withMem [(0x3002, 0xFE00#16)] [0x41#8]) 0xA601
      (fun t => t.reg .r3 == 0x8000#16 && t.cond == 0b100#3 && t.peek 0xFE00#16 == 0x8000#16 &&
        t.peek 0xFE02#16 == 0x0041#16 && t.inpos == 1) = true := by decide

/-- L7: not ready; the status word is overwritten with 0, the data word kept. -/
theorem test_ldi_not_ready :
    runs (withMem [(0x3002, 0xFE00#16), (0xFE00, 0x1234#16), (0xFE02, 0x0055#16)] []) 0xA601
      (fun t => t.reg .r3 == 0#16 && t.cond == 0b010#3 && t.peek 0xFE00#16 == 0#16 &&
        t.peek 0xFE02#16 == 0x0055#16) = true := by decide

/-- L9: base and destination the same. -/
theorem test_ldr :
    runs { withMem [(0x4000, 0x8000#16)] [] with regs := ⟨0#16, 0x4000#16, 0#16, 0#16, 0#16, 0#16, 0#16, 0#16⟩ }
      0x6240 (fun t => t.reg .r1 == 0x8000#16 && t.cond == 0b100#3) = true := by decide

/-- L16: computing the status address reads nothing. -/
theorem test_lea_reads_nothing :
    runs { withMem [] [0x41#8] with pc := 0xFDFE#16 } 0xE801
      (fun t => t.reg .r4 == 0xFE00#16 && t.cond == 0b100#3 && t.inpos == 0 && t.peek 0xFE00#16 == 0#16) = true := by
  decide

/-- S1: the store is over the next instruction. -/
theorem test_st :
    runs { State.reset with regs := ⟨0#16, 0#16, 0#16, 0#16, 0#16, 0xF025#16, 0#16, 0#16⟩ } 0x3A00
      (fun t => t.peek 0x3001#16 == 0xF025#16 && t.cond == 0b000#3) = true := by decide

/-- S6: the pointer read consumes a character and the pointer is 0x8000. -/
theorem test_sti_pointer_at_status :
    runs { withMem [] [0x41#8] with
        pc := 0xFDFE#16, regs := ⟨0#16, 0#16, 0#16, 0#16, 0#16, 0x0077#16, 0#16, 0#16⟩ } 0xBA01
      (fun t => t.peek 0x8000#16 == 0x0077#16 && t.peek 0xFE00#16 == 0x8000#16 && t.peek 0xFE02#16 == 0x0041#16 &&
        t.inpos == 1) = true := by decide

/-- S7: the address wraps downward. -/
theorem test_str_wraps :
    runs { State.reset with regs := ⟨0#16, 0#16, 0#16, 0#16, 0#16, 1#16, 0#16, 0#16⟩ } 0x7BBF
      (fun t => t.peek 0xFFFF#16 == 1#16) = true := by decide

/-- T1: the high byte is cleared and COND kept. -/
theorem test_getc :
    runs { withMem [] [0x61#8, 0x62#8] with
        cond := 0b100#3, regs := ⟨0xBEEF#16, 0#16, 0#16, 0#16, 0#16, 0#16, 0#16, 0#16⟩ } 0xF020
      (fun t => t.reg .r0 == 0x0061#16 && t.cond == 0b100#3 && t.inpos == 1 && t.out == []) = true := by decide

/-- T2: input exhausted. -/
theorem test_getc_exhausted :
    runs { State.reset with regs := ⟨0xBEEF#16, 0#16, 0#16, 0#16, 0#16, 0#16, 0#16, 0#16⟩ } 0xF020
      (fun t => t.reg .r0 == 0xBEEF#16 && t.run == .faulted && t.cause == .inputExhausted 0x20#8 &&
        t.pc == 0x3001#16 && t.inpos == 0) = true := by decide

/-- T5. -/
theorem test_in : runs { withMem [] [0x0A#8] with cond := 0b010#3 } 0xF023
    (fun t => t.reg .r0 == 0x000A#16 && t.cond == 0b010#3 && t.inpos == 1 && t.out == []) = true := by decide

/-- T6. -/
theorem test_in_exhausted : runs State.reset 0xF023
    (fun t => t.run == .faulted && t.cause == .inputExhausted 0x23#8 && t.pc == 0x3001#16) = true := by decide

/-- T9: the word is recorded whole. -/
theorem test_out :
    runs { State.reset with regs := ⟨0x1241#16, 0#16, 0#16, 0#16, 0#16, 0#16, 0#16, 0#16⟩ } 0xF021
      (fun t => t.out == [0x1241#16] && t.reg .r0 == 0x1241#16) = true := by decide

/-- T12: the walk wraps from 0xFFFF to 0x0000. -/
theorem test_puts_wraps :
    runs { withMem [(0, 0x0042#16), (0xFFFF, 0x0041#16)] [] with
        regs := ⟨0xFFFF#16, 0#16, 0#16, 0#16, 0#16, 0#16, 0#16, 0#16⟩ } 0xF022
      (fun t => t.out == [0x0041#16, 0x0042#16] && t.run == .running) = true := by decide

/-- T15: the walk crosses the status word. -/
theorem test_puts_polls :
    runs { withMem [(0xFDFF, 0x0058#16)] [0x41#8] with
        regs := ⟨0xFDFF#16, 0#16, 0#16, 0#16, 0#16, 0#16, 0#16, 0#16⟩ } 0xF022
      (fun t => t.out == [0x0058#16, 0x8000#16] && t.inpos == 1 && t.peek 0xFE02#16 == 0x0041#16) = true := by
  decide

/-- T17: low byte first. -/
theorem test_putsp :
    runs { withMem [(0x3010, 0x4241#16), (0x3011, 0x0043#16)] [] with
        regs := ⟨0x3010#16, 0#16, 0#16, 0#16, 0#16, 0#16, 0#16, 0#16⟩ } 0xF024
      (fun t => t.out == [0x0041#16, 0x0042#16, 0x0043#16]) = true := by decide

/-- T18: the low byte is emitted even when it is zero. -/
theorem test_putsp_zero_low_byte :
    runs { withMem [(0x3010, 0x4200#16)] [] with
        regs := ⟨0x3010#16, 0#16, 0#16, 0#16, 0#16, 0#16, 0#16, 0#16⟩ } 0xF024
      (fun t => t.out == [0x0000#16, 0x0042#16]) = true := by decide

/-- T21. -/
theorem test_halt : runs { State.reset with cond := 0b001#3 } 0xF025
    (fun t => t.run == .halted && t.cause == .noFault && t.out == [0x48#16, 0x41#16, 0x4C#16, 0x54#16, 0x0A#16] &&
      t.pc == 0x3001#16 && t.cond == 0b001#3) = true := by decide

/-- T26: nothing but the PC. -/
theorem test_trap_undefined :
    runs State.reset 0xF01F (fun t => decide (t = { State.reset.withFetchWord 16 0xF01F with pc := 0x3001#16 })) = true := by
  decide

/-- X2. -/
theorem test_res : runs State.reset 0xDFFF
    (fun t => t.run == .faulted && t.cause == .decodeFault 13#4 && t.pc == 0x3001#16) = true := by decide

/-- X4: one past wraps. -/
theorem test_rti : runs { State.reset with pc := 0xFFFF#16 } 0x8FFF
    (fun t => t.run == .faulted && t.cause == .decodeFault 8#4 && t.pc == 0#16) = true := by decide

/-! ## The cycle and the launch -/

/-- X8: a word stored at the status address is never executed. -/
theorem test_fetch_at_status :
    steps { withMem [(0xFE00, 0x1021#16)] [] with pc := 0xFE00#16 }
      (fun t => t.pc == 0xFE01#16 && t.peek 0xFE00#16 == 0#16 && t.reg .r0 == 0#16 && t.run == .running) = true := by
  decide

/-- S6 of Part 1: the one-word HALT image halts in one step. -/
theorem test_launch_halt_image :
    steps (nextOr State.reset (launch standardConfig [] ⟨0x3000#16, [0xF025#16]⟩))
      (fun t => t.run == .halted && t.out == haltTextDefault && t.pc == 0x3001#16) = true := by decide

/-- R334: an image that ends at 0xFFFF is loaded, one word more is refused. -/
theorem test_launch_edge :
    (nextOr State.reset (launch standardConfig [] ⟨0xFFFF#16, [7#16]⟩)).peek 0xFFFF#16 = 7#16 ∧
    refusal (launch standardConfig [] ⟨0xFFFF#16, [7#16, 8#16]⟩) = some .imagePastEnd := by decide

/-- R52 and R9: the other two inadmissible launches. -/
theorem test_launch_refusals :
    refusal (launch standardConfig [256] ⟨0#16, []⟩) = some .inputCodeTooWide ∧
    refusal (launch ⟨5#16, 5#16, []⟩ [] ⟨0#16, []⟩) = some .keyboardAddressesEqual := by decide

/-- Reset memory has the canonical form; a list that holds an unlisted value has not. -/
theorem test_memory_form :
    Memory.wf State.reset.mem = true ∧ Memory.wf [(5, 0#16)] = false ∧
    Memory.wf [(5, 1#16), (5, 2#16)] = false ∧ Memory.wf [(65536, 1#16)] = false := by decide

/-- Storing the unlisted value removes the entry. -/
theorem test_memory_put_removes : Memory.put [(4, 1#16), (5, 2#16)] 4 0#16 = [(5, 2#16)] := by decide

/-! ## Witnesses of the statements' hypotheses -/

/-- A canonical state with a word in memory, one character left, COND negative and a zero-terminated string. -/
def sample : State :=
  { withMem [(0x3000, 0xF020#16), (0x4000, 0x0048#16), (0x4001, 0x0069#16), (0xFE02, 0x0055#16)] [0x41#8] with
    cond := 0b100#3
    regs := ⟨0x4000#16, 0xFFFF#16, 0x8000#16, 0#16, 0x7FFF#16, 1#16, 0xFE00#16, 0x5000#16⟩ }

/-- `sample` with its one character consumed. -/
def sampleExhausted : State := { sample with inpos := 1 }

theorem witness_sample_wf : Memory.wf sample.mem = true ∧ sample.run = .running ∧
    sample.pc ≠ sample.cfg.kbsrAddr := by decide

/-- EveryStepKeepsTheInvariant, FetchAtTheStatusWord: the invariant holds away from reset too. -/
theorem witness_inv : { sample with pc := 0xFE00#16 }.Inv :=
  ⟨by decide, by decide, by decide, by decide, by decide⟩

theorem witness_inv_exhausted : { sampleExhausted with pc := 0xFE00#16 }.Inv :=
  ⟨by decide, by decide, by decide, by decide, by decide⟩

theorem witness_DecodeOfEncode : (Instr.trap 0x00#8).wellFormed = true ∧ (Instr.trap 0x1F#8).wellFormed = true ∧
    (Instr.trap 0x26#8).wellFormed = true ∧ (Instr.trap 0xFF#8).wellFormed = true ∧
    (Instr.addI .r7 .r7 0x10#5).wellFormed = true := by decide

/-- UnusedBitsIgnored: the words of vector A10 and of its canonical form. -/
theorem witness_UnusedBitsIgnored :
    0x1298#16 ≠ 0x1280#16 ∧ 0x1298#16 &&& usedBits (decode 0x1280#16) = 0x1280#16 &&& usedBits (decode 0x1280#16) := by
  decide

/-- SetCCFollowsItsRule: each clause, at the boundary values of T2. -/
theorem witness_SetCC :
    (sample.reg .r3).toNat = 0 ∧ (sample.reg .r2).toNat = 0x8000 ∧ (sample.reg .r2)[15] = true ∧
    (sample.reg .r1)[15] = true ∧ (sample.reg .r4)[15] = false ∧ (sample.reg .r4).toNat = 0x7FFF ∧
    (sample.reg .r5)[15] = false ∧ (sample.reg .r5).toNat ≠ 0 := by decide

theorem witness_OtherReads : (0xFDFF#16 : Word) ≠ sample.cfg.kbsrAddr ∧ (0xFE01#16 : Word) ≠ sample.cfg.kbsrAddr := by
  decide

/-- StatusReadPollsTheKeyboard, CharacterReadDelivers, CharacterReadFaultsWhenExhausted: both cases. -/
theorem witness_StatusRead : sample.cfg.kbsrAddr ≠ sample.cfg.kbdrAddr ∧ sample.input[sample.inpos]? = some 0x41#8 ∧
    sampleExhausted.input.length ≤ sampleExhausted.inpos := by decide

/-- CanonicalMemoryIsUnique: two canonical lists, built in different orders, that read the same everywhere. -/
theorem witness_CanonicalMemoryIsUnique :
    Memory.wf (Memory.put (Memory.put [] 5 1#16) 4 2#16) = true ∧
    Memory.wf (Memory.put (Memory.put [] 4 2#16) 5 1#16) = true ∧
    ∀ a : Word, Memory.get (Memory.put (Memory.put [] 5 1#16) 4 2#16) a.toNat =
      Memory.get (Memory.put (Memory.put [] 4 2#16) 5 1#16) a.toNat := ⟨by decide, by decide, fun _ => rfl⟩

/-- BranchFollowsItsRule: a legal COND, with a mask that meets it and one that does not. -/
theorem witness_Branch : legalCond sample.cond = true ∧
    (∃ k, k < 3 ∧ (0b100#3).getLsbD k = true ∧ sample.cond.getLsbD k = true) ∧
    ¬ ∃ k, k < 3 ∧ (0b011#3).getLsbD k = true ∧ sample.cond.getLsbD k = true := by decide

/-- JsrFollowsItsRule: a later state with the same R7. -/
theorem witness_Jsr : (nextOr sample (exec (.jsr 0x400#11) sample)).reg .r7 = 0x3000#16 ∧
    { sample with regs := sample.regs.set .r7 0x3000#16, cond := 0b001#3 }.reg .r7 = 0x3000#16 := by decide

/-- PutsOnAPlainString: the string of two words at 0x4000, and the empty string. -/
theorem witness_PutsOnAPlainString :
    (∀ k, k ≤ 2 → sample.reg .r0 + BitVec.ofNat 16 k ≠ sample.cfg.kbsrAddr) ∧
    (∀ k, k < 2 → sample.peek (sample.reg .r0 + BitVec.ofNat 16 k) ≠ 0#16) ∧
    sample.peek (sample.reg .r0 + BitVec.ofNat 16 2) = 0#16 ∧
    State.reset.peek (State.reset.reg .r0 + BitVec.ofNat 16 0) = 0#16 := by decide

/-- UndefinedTrapDoesNothing: both sides of the range, as vectors and as words. -/
theorem witness_UndefinedTrap : (0x1F#8).toNat < 0x20 ∧ 0x25 < (0x26#8).toNat ∧
    (0xFF1F#16).toNat / 4096 = 15 ∧ (0xFF1F#16).toNat % 256 < 0x20 ∧
    (0xF026#16).toNat / 4096 = 15 ∧ 0x25 < (0xF026#16).toNat % 256 := by decide

/-- ResRaisesDecodeFault, RtiRaisesDecodeFault: first and last words. -/
theorem witness_Reserved : (0xD000#16).toNat / 4096 = 13 ∧ (0xDFFF#16).toNat / 4096 = 13 ∧
    (0x8000#16).toNat / 4096 = 8 ∧ (0x8FFF#16).toNat / 4096 = 8 := by decide

/-- FaultsArePrecise, RunStateTransitions: a running state whose step faults, for each of the four causes. -/
theorem witness_Faults :
    ({ sampleExhausted with run := .running } : State) = sampleExhausted ∧
    steps sampleExhausted (fun t => t.run == .faulted && t.cause == .inputExhausted 0x20#8) = true ∧
    runs sampleExhausted 0xF023 (fun t => t.run == .faulted && t.cause == .inputExhausted 0x23#8) = true ∧
    runs sample 0xD000 (fun t => t.run == .faulted && t.cause == .decodeFault 13#4) = true ∧
    runs sample 0x8000 (fun t => t.run == .faulted && t.cause == .decodeFault 8#4) = true := by decide

/-- StepRunsTheDecodedInstruction, RunStateTransitions: a step that goes on and one that halts; a launch; a
terminal state of each kind with its step. -/
theorem witness_Steps :
    steps sample (fun t => t.run == .running) = true ∧ runs sample 0xF025 (fun t => t.run == .halted) = true ∧
    (nextOr sample (launch standardConfig [255] ⟨0xFFFF#16, [1#16]⟩)).inpos = 0 ∧
    isNext (launch standardConfig [255] ⟨0xFFFF#16, [1#16]⟩) = true ∧
    ({ sample with run := .halted } : State).run ≠ .running ∧
    steps { sample with run := .faulted, cause := .decodeFault 8#4 } (fun t => t.run == .faulted) = true := by decide

/-- FetchAtTheStatusWord: both cases. -/
theorem witness_FetchAtTheStatusWord :
    { sample with pc := 0xFE00#16 }.pc = sample.cfg.kbsrAddr ∧ sample.inpos < sample.input.length ∧
    sampleExhausted.input.length ≤ sampleExhausted.inpos := by decide

/-- OnlyFlagWritersWriteCond, OnlyNamedRegistersAreWritten, OnlyStoresAndPollsChangeMemory, OutputIsOnlyAppended:
instructions of each kind answer a next state. -/
theorem witness_Frames :
    (∀ i ∈ [Instr.addR .r1 .r1 .r1, .ld .r3 0#9, .ldr .r1 .r6 0#6, .lea .r2 0#9, .st .r1 0#9, .sti .r1 0#9, .jsr 0#11,
        .getc, .out, .puts, .putsp, .halt, .rti, .trap 0#8],
      isNext (exec i sample) = true) ∧
    flagWriter (.ld .r3 0#9) = some .r3 ∧ flagWriter .getc = none ∧
    storeAddress (.st .r1 0#9) sample = [0x3000#16] ∧ storeAddress (.str .r1 .r6 0#6) sample = [0xFE00#16] := by decide

/-- PcChangesByItsRule: one instruction for each clause, BR both ways. -/
theorem witness_PcChanges :
    (∀ i ∈ [Instr.br 0b111#3 0x1FF#9, .br 0b011#3 0x1FF#9, .jmp .r7, .jsr 0x400#11, .jsrr .r7, .not .r1 .r1],
      isNext (exec i sample) = true) ∧
    0b111#3 &&& sample.cond ≠ 0b000#3 ∧ 0b011#3 &&& sample.cond = 0b000#3 := by decide

/-- InputCursorMovesForward, OutputIsNeverRead, ParametersNeverChange, EveryStepKeepsTheInvariant,
EveryStepAnswers: a step from a state with a cursor in range, with an empty output record. -/
theorem witness_WholeStep : sample.inpos ≤ sample.input.length ∧ sample.out = [] ∧
    isNext (step sample) = true ∧ (nextOr State.reset (step sample)).inpos = 1 := by decide

/-- LaunchPlacesTheImage, InvariantHoldsAtLaunch: an image that ends exactly at 0xFFFF, and the empty image;
LaunchRefusesAnImagePastTheEnd: one word more. -/
theorem witness_Launch :
    standardConfig.kbsrAddr ≠ standardConfig.kbdrAddr ∧ (∀ c ∈ [0, 255], c ≤ 255) ∧
    (0xFFFE#16).toNat + [1#16, 2#16].length ≤ 65536 ∧ (0x0000#16).toNat + ([] : List Word).length ≤ 65536 ∧
    65536 < (0xFFFE#16).toNat + [1#16, 2#16, 3#16].length := by decide

end Sys2Proof.Tests
end

section
/-! PROOFS. The scope's rules: sign extension (00_scope.md R17) and the parameters of a run (R11). -/

namespace Sys2Proof.Machine

/-! Sign extension of an N-bit field to a word (00_scope.md R17). -/

/-- The two cases of R17, split at the field's top bit. -/
theorem signExtend_toNat_eq_specSext {n : Nat} (v : BitVec n) (hn : n ≤ 16) :
    (v.signExtend 16).toNat = specSext n v.toNat := by
  have hfit : v.toNat < 2 ^ 16 := v.isLt.trans_le (Nat.pow_le_pow_right (by omega) hn)
  rw [BitVec.toNat_signExtend, BitVec.toNat_setWidth, Nat.mod_eq_of_lt hfit, BitVec.msb_eq_decide]
  by_cases htop : v.toNat < 2 ^ (n - 1)
  · simp [specSext, htop]
  · simp [specSext, htop, Nat.not_lt.mp htop]

/-- Every bit of the extension above the field is the field's top bit. -/
theorem signExtend_getLsbD_high {n k : Nat} (v : BitVec n) (hnk : n ≤ k) (hk : k < 16) :
    (v.signExtend 16).getLsbD k = v.getLsbD (n - 1) := by
  rw [BitVec.getLsbD_signExtend, BitVec.msb_eq_getLsbD_last]
  simp only [hk, Nat.not_lt.mpr hnk, decide_true, Bool.true_and, if_false]

/-! What keeps the parameters INPUT, KBSR_ADDR, KBDR_ADDR and HALT_TEXT (assumption log 2). -/

theorem SameParams.refl (s : State) : SameParams s s := ⟨rfl, rfl⟩

theorem SameParams.trans {s t u : State} (hst : SameParams s t) (htu : SameParams t u) : SameParams s u :=
  ⟨htu.1.trans hst.1, htu.2.trans hst.2⟩

theorem State.afterRead_sameParams (s : State) (a : Word) : SameParams s (s.afterRead a) :=
  ⟨s.afterRead_input a, s.afterRead_cfg a⟩

theorem State.afterFetch_sameParams (s : State) : SameParams s s.afterFetch :=
  s.afterRead_sameParams s.pc

theorem State.load_sameParams (s : State) (dr : Reg) (ea : Word) : SameParams s (s.load dr ea) :=
  s.afterRead_sameParams ea

theorem State.readChar_sameParams (s : State) (vect : BitVec 8) : SameParams s (s.readChar vect) := by
  rcases Nat.lt_or_ge s.inpos s.input.length with hleft | hnone
  · rw [State.readChar, State.inNext_available hleft]
    exact ⟨rfl, rfl⟩
  · rw [State.readChar, State.inNext_exhausted hnone]
    exact ⟨rfl, rfl⟩

theorem StringRead.sameParams {s t : State} {a : Word} {ws : List Word} (h : StringRead s a ws t) :
    SameParams s t :=
  h.keeps (p := SameParams s) (fun u b hu => hu.trans (u.afterRead_sameParams b)) (SameParams.refl s)

/-- PUTS and PUTSP answer only after a walk that met a zero word, and then emit the walked words' characters. -/
theorem writeString_next {chars : Word → List Word} {s t : State} (h : writeString chars s = .next t) :
    ∃ ws u, StringRead s (s.reg .r0) ws u ∧ t = u.emit (ws.flatMap chars) := by
  rw [writeString] at h
  split at h
  · next ws u hwalk =>
    cases h
    exact ⟨ws, u, stringWalk_sound hwalk, rfl⟩
  · cases h

theorem writeString_sameParams {chars : Word → List Word} {s t : State} (h : writeString chars s = .next t) :
    SameParams s t := by
  obtain ⟨ws, u, hread, rfl⟩ := writeString_next h
  exact hread.sameParams

/-- Every instruction keeps the parameters: it writes registers, PC, COND, memory, OUT, RUN or CAUSE, and only
reads and character inputs move the cursor. -/
theorem exec_sameParams {i : Instr} {s t : State} (h : exec i s = .next t) : SameParams s t := by
  cases i with
  | puts | putsp => exact writeString_sameParams h
  | getc | inChar =>
    cases h
    exact s.readChar_sameParams _
  | ld dr off9 | ldr dr baseR off6 =>
    cases h
    exact s.load_sameParams dr _
  | ldi dr off9 =>
    cases h
    exact (s.afterRead_sameParams _).trans (State.load_sameParams _ dr _)
  | sti sr off9 =>
    cases h
    exact s.afterRead_sameParams (pcRelative s off9)
  | br nzp off9 =>
    cases h
    split <;> exact ⟨rfl, rfl⟩
  | addR | addI | andR | andI | not | lea | st | str | jmp | jsr | jsrr | rti | res | out | halt | trap =>
    cases h
    exact ⟨rfl, rfl⟩

end Sys2Proof.Machine

open Sys2Proof.Machine

/-- Settles O7: the general width's two lemmas at 5, 6, 9 and 11. -/
theorem signExtensionFollowsItsRule : Obligations.SignExtensionFollowsItsRule :=
  ⟨fun v => ⟨signExtend_toNat_eq_specSext v (by decide), fun _ => signExtend_getLsbD_high v⟩,
   fun v => ⟨signExtend_toNat_eq_specSext v (by decide), fun _ => signExtend_getLsbD_high v⟩,
   fun v => ⟨signExtend_toNat_eq_specSext v (by decide), fun _ => signExtend_getLsbD_high v⟩,
   fun v => ⟨signExtend_toNat_eq_specSext v (by decide), fun _ => signExtend_getLsbD_high v⟩⟩

/-- Settles O52: a running step is a fetch and one instruction, each of which keeps the parameters; in a terminal
state nothing changes. -/
theorem parametersNeverChange : Obligations.ParametersNeverChange := by
  intro s t h
  cases hrun : s.run with
  | running =>
    simp only [step, hrun] at h
    exact s.afterFetch_sameParams.trans (exec_sameParams h)
  | halted | faulted =>
    simp only [step, hrun] at h
    cases h
    exact SameParams.refl s

end

section
/-! PROOFS. What one step can do, said once, and what each effect keeps: the rules of 10_state.md for all
instructions at once. -/

namespace Sys2Proof.Machine

/-! One step (40_instruction_cycle.md R154, R157). -/

theorem step_running {s : State} (h : s.run = .running) : step s = exec (decode s.fetchWord) s.afterFetch := by
  simp [step, h]

theorem step_terminal {s : State} (h : s.run ≠ .running) : step s = .next s := by
  cases hrun : s.run with
  | running => exact absurd hrun h
  | halted | faulted => simp [step, hrun]

/-- A step that answers has executed the fetched instruction after the fetch, or was taken in a terminal state. -/
theorem step_next_cases {s t : State} (h : step s = .next t) :
    (s.run = .running ∧ exec (decode s.fetchWord) s.afterFetch = .next t) ∨ (s.run ≠ .running ∧ t = s) := by
  by_cases hrun : s.run = .running
  · exact .inl ⟨hrun, step_running hrun ▸ h⟩
  · rw [step_terminal hrun] at h
    cases h
    exact .inr ⟨hrun, rfl⟩

/-! The states that reads lead to. -/

/-- `u` is reached from `s` by some device-aware reads, the only way an instruction looks at memory
(20_memory.md R74). -/
inductive Reads (s : State) : State → Prop
  | none : Reads s s
  | read {u : State} (a : Word) : Reads s u → Reads s (u.afterRead a)

/-- What is kept by one read is kept by all of them. -/
theorem Reads.keeps {p : State → Prop} (hp : ∀ s a, p s → p (s.afterRead a)) {s u : State} (h : Reads s u)
    (hs : p s) : p u := by
  induction h with
  | none => exact hs
  | read a _ ih => exact hp _ a ih

/-- Reads only rewrite memory and move the cursor. -/
theorem Reads.shape {s u : State} (h : Reads s u) : ∃ m n, u = { s with mem := m, inpos := n } := by
  induction h with
  | none => exact ⟨s.mem, s.inpos, rfl⟩
  | read a _ ih =>
    obtain ⟨m, n, rfl⟩ := ih
    obtain ⟨m', n', hread⟩ := State.afterRead_shape { s with mem := m, inpos := n } a
    exact ⟨m', n', hread⟩

theorem StringRead.reads {s t : State} {a : Word} {ws : List Word} (h : StringRead s a ws t) : Reads s t :=
  h.keeps (p := Reads s) (fun _ b hu => hu.read b) .none

/-! The effects of the instructions. -/

/-- `Effect s i t`: the ways in which instruction `i` can lead from `s` to `t`, one constructor for each kind of
effect. -/
inductive Effect (s : State) : Instr → State → Prop
  /-- ADD, AND, NOT, LD, LDI, LDR, LEA: some reads, then a result and its flags (10_state.md R43). -/
  | result {i : Instr} {u : State} (dr : Reg) (v : Word) : flagWriter i = some dr → Reads s u →
      Effect s i (u.writeResult dr v)
  /-- ST, STI, STR: some reads, then a store. -/
  | store {i : Instr} {u : State} (a : Word) (sr : Reg) : flagWriter i = none → a ∈ storeAddress i s →
      Reads s u → Effect s i (u.memWrite a (s.reg sr))
  /-- BR, JMP and the undefined TRAP: nothing but the PC. -/
  | jump {i : Instr} (v : Word) : flagWriter i = none → Effect s i (s.setPc v)
  /-- JSR, JSRR: the link and the PC (10_state.md R32). -/
  | link {i : Instr} (v : Word) : flagWriter i = none → writtenRegs i = [.r7] → Effect s i (s.link.setPc v)
  /-- GETC, IN with a character left: it goes to R0 (44_trap.md R242). -/
  | char {i : Instr} (c : Byte) : flagWriter i = none → writtenRegs i = [.r0] → s.inpos < s.input.length →
      Effect s i (s.advance.setReg .r0 (zext8 c))
  /-- OUT, PUTS, PUTSP: some reads, then an output. -/
  | emit {i : Instr} {u : State} (cs : List Word) : flagWriter i = none → i = .out ∨ i = .puts ∨ i = .putsp →
      Reads s u → Effect s i (u.emit cs)
  /-- HALT (44_trap.md R247). -/
  | halt : Effect s .halt ((s.emit s.cfg.haltText).setRun .halted)
  /-- RTI, RES, and GETC, IN at exhausted input: one of the four faults (60_exceptions.md R290). -/
  | raise {i : Instr} (c : Cause) : flagWriter i = none → causeAgrees .faulted c = true →
      Effect s i (s.raise c)

/-- GETC and IN deliver a character or raise `InputExhausted`. -/
theorem readChar_effect {i : Instr} (s : State) {vect : BitVec 8} (hflag : flagWriter i = none)
    (hreg : writtenRegs i = [.r0]) (hvect : causeAgrees .faulted (.inputExhausted vect) = true) :
    Effect s i (s.readChar vect) := by
  rcases Nat.lt_or_ge s.inpos s.input.length with hleft | hnone
  · rw [State.readChar, State.inNext_available hleft]
    exact .char _ hflag hreg hleft
  · rw [State.readChar, State.inNext_exhausted hnone]
    exact .raise _ hflag hvect

/-- Every instruction that answers has one of the effects. -/
theorem exec_effect {i : Instr} {s t : State} (h : exec i s = .next t) : Effect s i t := by
  cases i with
  | addR | addI | andR | andI | not | lea =>
    cases h
    exact .result _ _ rfl .none
  | ld | ldr =>
    cases h
    exact .result _ _ rfl (.read _ .none)
  | ldi =>
    cases h
    exact .result _ _ rfl (.read _ (.read _ .none))
  | st sr | str sr =>
    cases h
    exact .store _ sr rfl (.head _) .none
  | sti sr =>
    cases h
    exact .store _ sr rfl (.head _) (.read _ .none)
  | br =>
    cases h
    split
    · exact .jump _ rfl
    · exact .jump s.pc rfl
  | jmp =>
    cases h
    exact .jump _ rfl
  | trap =>
    cases h
    exact .jump s.pc rfl
  | jsr | jsrr =>
    cases h
    exact .link _ rfl rfl
  | getc | inChar =>
    cases h
    exact readChar_effect s rfl rfl rfl
  | out =>
    cases h
    exact .emit _ rfl (by simp) .none
  | puts | putsp =>
    obtain ⟨ws, u, hread, rfl⟩ := writeString_next h
    exact .emit _ rfl (by simp) hread.reads
  | halt =>
    cases h
    exact .halt
  | rti | res =>
    cases h
    exact .raise _ rfl rfl

/-! The invariant, operation by operation. -/

section Invariant

variable {s : State}

theorem State.Inv.afterRead (hs : s.Inv) (a : Word) : (s.afterRead a).Inv where
  memCanonical := State.afterRead_wf a hs.memCanonical
  cursorInRange := by simpa using State.afterRead_cursor a hs.cursorInRange
  condLegal := by simpa using hs.condLegal
  causeLegal := by simpa using hs.causeLegal
  addressesDistinct := by simpa using hs.addressesDistinct

theorem State.Inv.reads {u : State} (hs : s.Inv) (h : Reads s u) : u.Inv :=
  h.keeps (p := State.Inv) (fun _ a hu => hu.afterRead a) hs

theorem State.Inv.setPc (hs : s.Inv) (v : Word) : (s.setPc v).Inv :=
  ⟨hs.memCanonical, hs.cursorInRange, hs.condLegal, hs.causeLegal, hs.addressesDistinct⟩

theorem State.Inv.afterFetch (hs : s.Inv) : s.afterFetch.Inv := (hs.afterRead s.pc).setPc _

theorem State.Inv.setReg (hs : s.Inv) (r : Reg) (v : Word) : (s.setReg r v).Inv :=
  ⟨hs.memCanonical, hs.cursorInRange, hs.condLegal, hs.causeLegal, hs.addressesDistinct⟩

theorem State.Inv.writeResult (hs : s.Inv) (dr : Reg) (v : Word) : (s.writeResult dr v).Inv where
  __ := hs
  condLegal := by simpa using condOf_legal v

theorem State.Inv.memWrite (hs : s.Inv) (a v : Word) : (s.memWrite a v).Inv :=
  ⟨Memory.wf_put a v hs.memCanonical, hs.cursorInRange, hs.condLegal, hs.causeLegal, hs.addressesDistinct⟩

theorem State.Inv.advance (hs : s.Inv) (hleft : s.inpos < s.input.length) : s.advance.Inv :=
  ⟨hs.memCanonical, hleft, hs.condLegal, hs.causeLegal, hs.addressesDistinct⟩

theorem State.Inv.emit (hs : s.Inv) (cs : List Word) : (s.emit cs).Inv :=
  ⟨hs.memCanonical, hs.cursorInRange, hs.condLegal, hs.causeLegal, hs.addressesDistinct⟩

/-- RUNNING and HALTED ask the same of CAUSE. -/
theorem State.Inv.halt (hs : s.Inv) (hrun : s.run = .running) : (s.setRun .halted).Inv :=
  ⟨hs.memCanonical, hs.cursorInRange, hs.condLegal, by simpa [hrun, causeAgrees] using hs.causeLegal,
    hs.addressesDistinct⟩

theorem State.Inv.raise (hs : s.Inv) {c : Cause} (hc : causeAgrees .faulted c = true) : (s.raise c).Inv :=
  ⟨hs.memCanonical, hs.cursorInRange, hs.condLegal, hc, hs.addressesDistinct⟩

end Invariant

/-- Each effect on a running state is made of operations that keep the invariant. -/
theorem Effect.inv {i : Instr} {s t : State} (h : Effect s i t) (hs : s.Inv) (hrun : s.run = .running) :
    t.Inv := by
  cases h with
  | result dr v _ hread => exact (hs.reads hread).writeResult dr v
  | store a sr _ _ hread => exact (hs.reads hread).memWrite a (s.reg sr)
  | jump v => exact hs.setPc v
  | link v => exact (hs.setReg .r7 s.pc).setPc v
  | char c _ _ hleft => exact (hs.advance hleft).setReg .r0 (zext8 c)
  | emit cs _ _ hread => exact (hs.reads hread).emit cs
  | halt => exact (hs.emit s.cfg.haltText).halt hrun
  | raise c _ hc => exact hs.raise hc

/-! The flags and the registers (10_state.md R32, R42, R43). -/

theorem condOf_zero {v : Word} (h : v.toNat = 0) : condOf v = condZro := by
  have hz : v = 0x0000#16 := BitVec.eq_of_toNat_eq h
  simp [condOf, hz]

theorem condOf_negative {v : Word} (h : v[15] = true) : condOf v = condNeg := by
  have hz : v ≠ 0x0000#16 := by rintro rfl; simp at h
  simp [condOf, hz, h]

theorem condOf_positive {v : Word} (h0 : v.toNat ≠ 0) (h : v[15] = false) : condOf v = condPos := by
  have hz : v ≠ 0x0000#16 := by rintro rfl; exact h0 rfl
  simp [condOf, hz, h]

/-- One of the three flags is set, whatever the value. -/
theorem condOf_cases (v : Word) : condOf v = condZro ∨ condOf v = condNeg ∨ condOf v = condPos := by
  unfold condOf
  split
  · exact .inl rfl
  · split
    · exact .inr (.inl rfl)
    · exact .inr (.inr rfl)

/-- An instruction other than the flag-writing ones leaves COND alone. -/
theorem Effect.cond_of_flagWriter_none {i : Instr} {s t : State} (h : Effect s i t)
    (hi : flagWriter i = none) : t.cond = s.cond := by
  cases h with
  | result dr v hflag => simp [hi] at hflag
  | store a sr _ _ hread | emit cs _ _ hread =>
    obtain ⟨m, n, rfl⟩ := hread.shape
    rfl
  | jump | link | char | halt | raise => rfl

/-- A flag-writing instruction leaves COND set from the register it has written. -/
theorem Effect.cond_of_flagWriter_some {i : Instr} {s t : State} {dr : Reg} (h : Effect s i t)
    (hi : flagWriter i = some dr) : t.cond.toNat = specCond (t.reg dr).toNat := by
  cases h with
  | result dr' v hflag =>
    obtain rfl : dr = dr' := Option.some.inj (hi.symm.trans hflag)
    rw [State.writeResult_cond, State.writeResult_reg_same, condOf_toNat]
  | halt => cases hi
  | store _ _ hflag | jump _ hflag | link _ hflag | char _ hflag | emit _ hflag | raise _ hflag =>
    simp [hi] at hflag

/-- A flag-writing instruction writes its destination and no other register. -/
theorem writtenRegs_of_flagWriter {i : Instr} {dr : Reg} (h : flagWriter i = some dr) :
    writtenRegs i = [dr] := by
  have hlist : writtenRegs i = (flagWriter i).toList := by
    cases i with
    | jsr | jsrr | getc | inChar => cases h
    | _ => rfl
  rw [hlist, h, Option.toList_some]

theorem Effect.regsExcept {i : Instr} {s t : State} (h : Effect s i t) : RegsExcept (writtenRegs i) s t := by
  intro r hr
  cases h with
  | result dr v hflag hread =>
    rw [writtenRegs_of_flagWriter hflag, List.mem_singleton] at hr
    obtain ⟨m, n, rfl⟩ := hread.shape
    exact State.writeResult_reg_other _ dr v hr
  | link v _ hreg =>
    rw [hreg, List.mem_singleton] at hr
    exact State.setReg_reg_other s s.pc hr
  | char c _ hreg =>
    rw [hreg, List.mem_singleton] at hr
    exact State.setReg_reg_other s.advance (zext8 c) hr
  | store a sr _ _ hread | emit cs _ _ hread =>
    obtain ⟨m, n, rfl⟩ := hread.shape
    rfl
  | jump | halt | raise => rfl

/-! The PC (10_state.md R35). -/

/-- An address plus a sign-extended offset, mod 65536 (00_scope.md R16, R17). -/
theorem add16_signExtend_toNat {n : Nat} (a : Word) (v : BitVec n) (hn : n ≤ 16) :
    (add16 a (v.signExtend 16)).toNat = (a.toNat + specSext n v.toNat) % 65536 := by
  rw [add16, BitVec.toNat_add, signExtend_toNat_eq_specSext v hn]

theorem pcRelative_toNat (s : State) (off9 : BitVec 9) :
    (pcRelative s off9).toNat = (s.pc.toNat + specSext 9 off9.toNat) % 65536 :=
  add16_signExtend_toNat s.pc off9 (by decide)

theorem State.readChar_pc (s : State) (vect : BitVec 8) : (s.readChar vect).pc = s.pc := by
  rcases Nat.lt_or_ge s.inpos s.input.length with hleft | hnone
  · rw [State.readChar, State.inNext_available hleft]
    rfl
  · rw [State.readChar, State.inNext_exhausted hnone]
    rfl

theorem writeString_pc {chars : Word → List Word} {s t : State} (h : writeString chars s = .next t) :
    t.pc = s.pc := by
  obtain ⟨ws, u, hread, rfl⟩ := writeString_next h
  obtain ⟨m, n, rfl⟩ := hread.shape
  rfl

/-! The input cursor (10_state.md R51). -/

/-- From `s` to `t` the cursor does not move back, and stays in its range if it was there. -/
def CursorForward (s t : State) : Prop :=
  s.inpos ≤ t.inpos ∧ (s.inpos ≤ s.input.length → t.inpos ≤ t.input.length)

theorem CursorForward.refl (s : State) : CursorForward s s := ⟨le_rfl, id⟩

theorem CursorForward.trans {s t u : State} (hst : CursorForward s t) (htu : CursorForward t u) :
    CursorForward s u :=
  ⟨hst.1.trans htu.1, fun h => htu.2 (hst.2 h)⟩

theorem State.afterRead_cursorForward (s : State) (a : Word) : CursorForward s (s.afterRead a) :=
  ⟨s.afterRead_inpos_le a, fun h => by simpa using State.afterRead_cursor a h⟩

theorem Reads.cursorForward {s u : State} (h : Reads s u) : CursorForward s u :=
  h.keeps (p := CursorForward s) (fun v a hv => hv.trans (v.afterRead_cursorForward a)) (.refl s)

theorem Effect.cursorForward {i : Instr} {s t : State} (h : Effect s i t) : CursorForward s t := by
  cases h with
  | result _ _ _ hread | store _ _ _ _ hread | emit _ _ _ hread => exact hread.cursorForward
  | char c _ _ hleft => exact ⟨Nat.le_succ s.inpos, fun _ => hleft⟩
  | jump | link | halt | raise => exact .refl s

/-! The output record (10_state.md R53). -/

theorem Effect.out_appended {i : Instr} {s t : State} (h : Effect s i t) :
    ∃ cs, t.out = s.out ++ cs ∧ (i ≠ .out → i ≠ .puts → i ≠ .putsp → i ≠ .halt → cs = []) := by
  cases h with
  | result _ _ _ hread | store _ _ _ _ hread =>
    obtain ⟨m, n, rfl⟩ := hread.shape
    exact ⟨[], (List.append_nil s.out).symm, fun _ _ _ _ => rfl⟩
  | emit cs _ hi hread =>
    obtain ⟨m, n, rfl⟩ := hread.shape
    exact ⟨cs, rfl, fun hout hputs hputsp _ => by simp [hout, hputs, hputsp] at hi⟩
  | halt => exact ⟨s.cfg.haltText, rfl, fun _ _ _ hhalt => absurd rfl hhalt⟩
  | jump | link | char | raise => exact ⟨[], (List.append_nil s.out).symm, fun _ _ _ _ => rfl⟩

/-- `s` with the codes `o` emitted before everything in its record. Every operation commutes with this. -/
def State.prependOut (s : State) (o : List Word) : State := { s with out := o ++ s.out }

section PrependOut

variable (s : State) (o : List Word)

@[simp] theorem State.prependOut_reg (r : Reg) : (s.prependOut o).reg r = s.reg r := rfl
@[simp] theorem State.prependOut_pcRelative (off9 : BitVec 9) :
    pcRelative (s.prependOut o) off9 = pcRelative s off9 := rfl
@[simp] theorem State.prependOut_baseOffset (baseR : Reg) (off6 : BitVec 6) :
    baseOffset (s.prependOut o) baseR off6 = baseOffset s baseR off6 := rfl
@[simp] theorem State.prependOut_memWrite (a v : Word) :
    (s.prependOut o).memWrite a v = (s.memWrite a v).prependOut o := rfl

theorem State.prependOut_emit (cs : List Word) :
    (s.prependOut o).emit cs = (s.emit cs).prependOut o := by
  simp [State.prependOut, State.emit]

@[simp] theorem State.prependOut_afterRead (a : Word) :
    (s.prependOut o).afterRead a = (s.afterRead a).prependOut o := by
  by_cases ha : a = s.cfg.kbsrAddr
  · subst ha
    rw [s.afterRead_status]
    refine (s.prependOut o).afterRead_status.trans ?_
    rcases Nat.lt_or_ge s.inpos s.input.length with hleft | hnone
    · rw [State.pollKeyboard_available hleft]
      exact State.pollKeyboard_available (s := s.prependOut o) hleft
    · rw [State.pollKeyboard_exhausted hnone]
      exact State.pollKeyboard_exhausted (s := s.prependOut o) hnone
  · rw [State.afterRead_plain ha]
    exact State.afterRead_plain (s := s.prependOut o) ha

@[simp] theorem State.prependOut_readWord (a : Word) : (s.prependOut o).readWord a = s.readWord a := by
  rw [State.readWord, State.prependOut_afterRead]
  rfl

@[simp] theorem State.prependOut_load (dr : Reg) (ea : Word) :
    (s.prependOut o).load dr ea = (s.load dr ea).prependOut o := by
  rw [State.load, State.prependOut_readWord, State.prependOut_afterRead]
  rfl

theorem State.prependOut_fetchWord : (s.prependOut o).fetchWord = s.fetchWord :=
  s.prependOut_readWord o s.pc

theorem State.prependOut_afterFetch : (s.prependOut o).afterFetch = s.afterFetch.prependOut o :=
  congrArg (State.setPc · (add16 s.pc 1#16)) (s.prependOut_afterRead o s.pc)

theorem State.prependOut_readChar (vect : BitVec 8) :
    (s.prependOut o).readChar vect = (s.readChar vect).prependOut o := by
  rcases Nat.lt_or_ge s.inpos s.input.length with hleft | hnone
  · rw [State.readChar, State.readChar, State.inNext_available hleft,
      State.inNext_available (s := s.prependOut o) hleft]
    rfl
  · rw [State.readChar, State.readChar, State.inNext_exhausted hnone,
      State.inNext_exhausted (s := s.prependOut o) hnone]
    rfl

end PrependOut

theorem stringWalk_prependOut (o : List Word) {fuel : Nat} {a : Word} {s t : State} {ws : List Word}
    (h : stringWalk fuel a s = some (ws, t)) :
    stringWalk fuel a (s.prependOut o) = some (ws, t.prependOut o) := by
  induction fuel generalizing a s ws with
  | zero => cases h
  | succ n ih =>
    rw [stringWalk] at h ⊢
    rw [State.prependOut_readWord, State.prependOut_afterRead]
    split at h
    · next hzero =>
      cases h
      rw [if_pos hzero]
    · next hzero =>
      rw [if_neg hzero]
      split at h
      · next hwalk =>
        cases h
        rw [ih hwalk]
      · cases h

theorem writeString_prependOut (o : List Word) {chars : Word → List Word} {s t : State}
    (h : writeString chars s = .next t) : writeString chars (s.prependOut o) = .next (t.prependOut o) := by
  rw [writeString] at h ⊢
  split at h
  · next ws u hwalk =>
    cases h
    have hwalk' : stringWalk (s.prependOut o).walkFuel ((s.prependOut o).reg .r0) (s.prependOut o) =
        some (ws, u.prependOut o) := stringWalk_prependOut o hwalk
    rw [hwalk', ← State.prependOut_emit]
  · cases h

/-- No instruction looks at the record: it commutes with codes put in front. -/
theorem exec_prependOut (o : List Word) {i : Instr} {s t : State} (h : exec i s = .next t) :
    exec i (s.prependOut o) = .next (t.prependOut o) := by
  cases i with
  | puts | putsp => exact writeString_prependOut o h
  | getc | inChar =>
    cases h
    exact congrArg Host.Outcome.next (s.prependOut_readChar o _)
  | out =>
    cases h
    exact congrArg Host.Outcome.next (s.prependOut_emit o [s.reg .r0])
  | halt =>
    cases h
    exact congrArg (fun u => Host.Outcome.next (u.setRun .halted)) (s.prependOut_emit o s.cfg.haltText)
  | ld | ldr | ldi | sti =>
    cases h
    simp [exec, execLd, execLdr, execLdi, execSti]
  | br nzp off9 =>
    cases h
    exact congrArg Host.Outcome.next
      (apply_ite (State.prependOut · o) (branchTaken nzp s.cond = true) (s.setPc (pcRelative s off9)) s).symm
  | addR | addI | andR | andI | not | lea | st | str | jmp | jsr | jsrr | rti | res | trap =>
    cases h
    rfl

theorem step_prependOut (o : List Word) {s t : State} (h : step s = .next t) :
    step (s.prependOut o) = .next (t.prependOut o) := by
  rcases step_next_cases h with ⟨hrun, hexec⟩ | ⟨hrun, rfl⟩
  · rw [step_running (s := s.prependOut o) hrun, State.prependOut_fetchWord, State.prependOut_afterFetch]
    exact exec_prependOut o hexec
  · exact step_terminal (s := t.prependOut o) hrun

end Sys2Proof.Machine

open Sys2Proof.Machine

/-- Settles O59: the fetch keeps the invariant, and so does each effect; in a terminal state nothing changes. -/
theorem everyStepKeepsTheInvariant : Obligations.EveryStepKeepsTheInvariant := by
  intro s t hs h
  rcases step_next_cases h with ⟨hrun, hexec⟩ | ⟨_, rfl⟩
  · exact (exec_effect hexec).inv hs.afterFetch ((s.afterRead_run s.pc).trans hrun)
  · exact hs

/-- Settles O45: a flag-writing instruction has the effect `result`, every other one an effect without it. -/
theorem onlyFlagWritersWriteCond : Obligations.OnlyFlagWritersWriteCond := by
  intro i s t h
  split
  · next dr hflag => exact (exec_effect h).cond_of_flagWriter_some hflag
  · next hflag => exact (exec_effect h).cond_of_flagWriter_none hflag

/-- Settles O46: each effect writes no register but the named ones. -/
theorem onlyNamedRegistersAreWritten : Obligations.OnlyNamedRegistersAreWritten :=
  fun _ _ _ h => (exec_effect h).regsExcept

/-- Settles O48: BR by whether it is taken, the transfers from their definitions, and all others by the fields
they write. -/
theorem pcChangesByItsRule : Obligations.PcChangesByItsRule := by
  intro i s t h
  cases i with
  | br nzp off9 =>
    cases h
    by_cases hmask : nzp &&& s.cond = 0b000#3
    · simp [branchTaken, hmask]
    · simp [branchTaken, hmask, pcRelative_toNat]
  | jsr off11 =>
    cases h
    exact add16_signExtend_toNat s.pc off11 (by decide)
  | rti | res =>
    cases h
    exact ⟨rfl, rfl⟩
  | puts | putsp => exact writeString_pc h
  | getc | inChar =>
    cases h
    exact s.readChar_pc _
  | ld | ldr | sti =>
    cases h
    exact s.afterRead_pc _
  | ldi =>
    cases h
    exact (State.afterRead_pc _ _).trans (s.afterRead_pc _)
  | jmp | jsrr | addR | addI | andR | andI | not | lea | st | str | out | halt | trap =>
    cases h
    rfl

/-- Settles O49: the fetch moves the cursor forward, and so does each effect. -/
theorem inputCursorMovesForward : Obligations.InputCursorMovesForward := by
  intro s t hcursor h
  have hforward : CursorForward s t := by
    rcases step_next_cases h with ⟨_, hexec⟩ | ⟨_, rfl⟩
    · exact CursorForward.trans (t := s.afterFetch) (s.afterRead_cursorForward s.pc)
        (exec_effect hexec).cursorForward
    · exact .refl t
  exact ⟨hforward.1, hforward.2 hcursor⟩

/-- Settles O50: each effect appends, and only `emit` and `halt` append a code. -/
theorem outputIsOnlyAppended : Obligations.OutputIsOnlyAppended :=
  fun _ _ _ h => (exec_effect h).out_appended

/-- Settles O51: the state with the record `o` is the state with the empty record and `o` put in front. -/
theorem outputIsNeverRead : Obligations.OutputIsNeverRead := by
  intro s t o h
  have hstep := step_prependOut o h
  rwa [State.prependOut, List.append_nil] at hstep

/-- Settles O8: the three cases of `condOf`. -/
theorem setCCFollowsItsRule : Obligations.SetCCFollowsItsRule :=
  fun s r => ⟨condOf_zero, fun _ => condOf_negative, condOf_positive, condOf_cases (s.reg r), rfl⟩

/-- Settles O54: the fields of `State.reset`, register by register. -/
theorem resetValuesOfTheDecisions : Obligations.ResetValuesOfTheDecisions :=
  ⟨fun r => by cases r <;> rfl, rfl, rfl, rfl⟩

/-- Settles O57: each field of the invariant, evaluated at `State.reset`. -/
theorem invariantHoldsAtReset : Obligations.InvariantHoldsAtReset :=
  ⟨rfl, le_rfl, rfl, rfl, rfl⟩

end

section
/-! PROOFS. Memory and the keyboard words (20_memory.md): a canonical list is determined by its reads, what a store,
a poll and a read change, and the memory that each effect leaves alone. -/

namespace Sys2Proof.Machine

/-! A canonical list is determined by what it reads as (assumption log 1). -/

@[simp] theorem Memory.get_cons_same (b : Nat) (w : Word) (rest : Memory) : Memory.get ((b, w) :: rest) b = w := by
  simp [Memory.get]

theorem Memory.get_cons_other {q b : Nat} (w : Word) (rest : Memory) (h : q ≠ b) :
    Memory.get ((b, w) :: rest) q = Memory.get rest q := by
  simp [Memory.get, h]

/-- The first listed word is not `unlistedWord`, so a canonical list that reads the same there cannot begin after
it. -/
theorem Memory.wfFrom_le_of_get_eq {lo lo' a : Nat} {v : Word} {rest n : Memory}
    (hm : Memory.wfFrom lo ((a, v) :: rest) = true) (hn : Memory.wfFrom lo' n = true)
    (hget : Memory.get n a = v) : lo' ≤ a := by
  obtain ⟨-, -, hlisted, -⟩ := Memory.wfFrom_cons.mp hm
  by_contra hbelow
  exact hlisted (hget.symm.trans (Memory.get_below hn (Nat.not_le.mp hbelow)))

/-- Two canonical lists that read the same at every address of memory list the same words in the same order. -/
theorem Memory.eq_of_get_eq {m n : Memory} {lo lo' : Nat} (hm : Memory.wfFrom lo m = true)
    (hn : Memory.wfFrom lo' n = true) (h : ∀ q < memoryWords, Memory.get m q = Memory.get n q) : m = n := by
  induction m generalizing n lo lo' with
  | nil =>
    cases n with
    | nil => rfl
    | cons d rest' =>
      obtain ⟨b, w⟩ := d
      obtain ⟨-, hb, hw, -⟩ := Memory.wfFrom_cons.mp hn
      exact absurd (by simpa [Memory.get] using (h b hb).symm) hw
  | cons c rest ih =>
    obtain ⟨a, v⟩ := c
    obtain ⟨-, ha, hv, hrest⟩ := Memory.wfFrom_cons.mp hm
    cases n with
    | nil => exact absurd (by simpa [Memory.get] using h a ha) hv
    | cons d rest' =>
      obtain ⟨b, w⟩ := d
      obtain ⟨-, hb, hw, hrest'⟩ := Memory.wfFrom_cons.mp hn
      have hba : b ≤ a := Memory.wfFrom_le_of_get_eq hm
        (Memory.wfFrom_cons.mpr ⟨le_rfl, hb, hw, hrest'⟩) (by simpa using (h a ha).symm)
      have hab : a ≤ b := Memory.wfFrom_le_of_get_eq hn
        (Memory.wfFrom_cons.mpr ⟨le_rfl, ha, hv, hrest⟩) (by simpa using h b hb)
      obtain rfl : a = b := le_antisymm hab hba
      obtain rfl : v = w := by simpa using h a ha
      have htail : rest = rest' := by
        refine ih hrest hrest' fun q hq => ?_
        by_cases hqa : q = a
        · subst hqa
          rw [Memory.get_below hrest q.lt_succ_self, Memory.get_below hrest' q.lt_succ_self]
        · simpa only [Memory.get_cons_other _ _ hqa] using h q hq
      rw [htail]

/-! The store and the poll (20_memory.md R74, R76). -/

/-- A plain store into a canonical memory stores its word and does nothing else, the keyboard words included. -/
theorem State.poke_wordStored {s : State} (a v : Word) (h : Memory.wf s.mem = true) :
    WordStored s (s.poke a v) a v :=
  ⟨State.poke_peek_same a v h, fun _ hq => State.poke_peek_other s v (by simpa using hq),
    fun _ _ => rfl, rfl, rfl, ⟨rfl, rfl⟩, ⟨rfl, rfl⟩, ⟨rfl, rfl⟩⟩

theorem zext8_toNat (c : Byte) : (zext8 c).toNat = c.toNat :=
  BitVec.toNat_setWidth_of_le (by decide)

/-- A poll with a character left makes the status READY: the data word is another one. -/
theorem State.pollKeyboard_peek_status {s : State} (hwf : Memory.wf s.mem = true)
    (hdistinct : s.cfg.kbsrAddr ≠ s.cfg.kbdrAddr) (hleft : s.inpos < s.input.length) :
    s.pollKeyboard.peek s.cfg.kbsrAddr = kbsrReady := by
  rw [State.pollKeyboard_available hleft, State.poke_peek_other _ _ hdistinct,
    State.poke_peek_same (s := s.advance) _ _ hwf]

/-- A poll with a character left delivers it. -/
theorem State.pollKeyboard_peek_data {s : State} (hwf : Memory.wf s.mem = true)
    (hleft : s.inpos < s.input.length) :
    s.pollKeyboard.peek s.cfg.kbdrAddr = zext8 s.input[s.inpos] := by
  rw [State.pollKeyboard_available hleft, State.poke_peek_same _ _ (Memory.wf_put _ _ hwf)]

/-- Putting memory and cursor back undoes a read. -/
theorem State.afterRead_restore (s : State) (a : Word) :
    { s.afterRead a with mem := s.mem, inpos := s.inpos } = s := by
  obtain ⟨m, n, hread⟩ := s.afterRead_shape a
  rw [hread]

/-! The memory that is left alone (20_memory.md R74, R76, R78). -/

/-- A read changes no word but the two keyboard words. -/
theorem State.afterRead_memoryExcept (s : State) (a : Word) :
    MemoryExcept [s.cfg.kbsrAddr, s.cfg.kbdrAddr] s (s.afterRead a) := by
  intro q hq
  obtain ⟨hstatus, hdata⟩ : q ≠ s.cfg.kbsrAddr ∧ q ≠ s.cfg.kbdrAddr := by simpa using hq
  exact s.afterRead_peek_other a hstatus hdata

/-- Any number of reads change no word but the two keyboard words: none changes where these stand. -/
theorem Reads.memoryExcept {s u : State} (h : Reads s u) :
    MemoryExcept [s.cfg.kbsrAddr, s.cfg.kbdrAddr] s u := by
  induction h with
  | none => exact fun _ _ => rfl
  | @read u a hread ih =>
    have hcfg : u.cfg = s.cfg := by
      obtain ⟨m, n, rfl⟩ := hread.shape
      rfl
    exact fun q hq => (u.afterRead_memoryExcept a q (hcfg ▸ hq)).trans (ih q hq)

/-- Each effect changes the keyboard words by its reads, and the word at its store address. -/
theorem Effect.memoryExcept {i : Instr} {s t : State} (h : Effect s i t) :
    MemoryExcept (s.cfg.kbsrAddr :: s.cfg.kbdrAddr :: storeAddress i s) s t := by
  intro q hq
  have hkeyboard : q ∉ [s.cfg.kbsrAddr, s.cfg.kbdrAddr] :=
    fun hmem => hq (List.mem_append_left (storeAddress i s) hmem)
  cases h with
  | result _ _ _ hread | emit _ _ _ hread => exact hread.memoryExcept q hkeyboard
  | @store _ u a sr _ haddr hread =>
    have hqa : q ≠ a := by
      rintro rfl
      exact hq (.tail _ (.tail _ haddr))
    exact (State.poke_peek_other u _ hqa).trans (hread.memoryExcept q hkeyboard)
  | jump | link | char | halt | raise => rfl

end Sys2Proof.Machine

open Sys2Proof Sys2Proof.Machine

/-- Settles O12: the lists agree word by word, from the first listed one on. -/
theorem canonicalMemoryIsUnique : Obligations.CanonicalMemoryIsUnique :=
  fun _ _ hm hn h => Memory.eq_of_get_eq hm hn fun q (hq : q < 65536) => by
    simpa [Nat.mod_eq_of_lt hq] using h (BitVec.ofNat 16 q)

/-- Settles O47: each effect reads, which changes only the keyboard words, and stores at most at its address. -/
theorem onlyStoresAndPollsChangeMemory : Obligations.OnlyStoresAndPollsChangeMemory :=
  fun _ _ _ h => (exec_effect h).memoryExcept

/-- Settles O9: `memWrite` is the plain store at every address. -/
theorem memWriteIsAPlainStore : Obligations.MemWriteIsAPlainStore :=
  fun _ a v h => State.poke_wordStored a v h

/-- Settles O10: such a read is no poll. -/
theorem otherReadsArePlain : Obligations.OtherReadsArePlain :=
  fun _ _ h => ⟨State.afterRead_plain h, State.readWord_plain h⟩

/-- Settles O11: the two cases of a poll, a character left or none. -/
theorem statusReadPollsTheKeyboard : Obligations.StatusReadPollsTheKeyboard := by
  intro s hwf hdistinct
  constructor
  · intro c hc
    obtain ⟨hleft, rfl⟩ := List.getElem?_eq_some_iff.mp hc
    have hstatus : (s.afterRead s.cfg.kbsrAddr).peek s.cfg.kbsrAddr = kbsrReady := by
      rw [State.afterRead_status, State.pollKeyboard_peek_status hwf hdistinct hleft]
    have hdata : (s.afterRead s.cfg.kbsrAddr).peek s.cfg.kbdrAddr = zext8 s.input[s.inpos] := by
      rw [State.afterRead_status, State.pollKeyboard_peek_data hwf hleft]
    have hcursor : (s.afterRead s.cfg.kbsrAddr).inpos = s.inpos + 1 := by
      simp [State.afterRead_inpos, hleft]
    exact ⟨hstatus, hstatus, by rw [hdata, zext8_toNat], hcursor, s.afterRead_memoryExcept _,
      s.afterRead_restore _⟩
  · intro hnone
    have hpoll : s.afterRead s.cfg.kbsrAddr = s.poke s.cfg.kbsrAddr kbsrNotReady := by
      rw [State.afterRead_status, State.pollKeyboard_exhausted hnone]
    refine ⟨State.readWord_exhausted hwf hnone, ?_⟩
    rw [hpoll]
    exact State.poke_wordStored _ _ hwf

/-- Settles O13: with offset 0 the store address is the PC itself, where the next fetch is a plain read. -/
theorem storeIsSeenByTheNextFetch : Obligations.StoreIsSeenByTheNextFetch := by
  intro s sr hwf hpc
  have haddr : pcRelative s 0#9 = s.pc := by simp [pcRelative, add16, sext9]
  refine ⟨s.memWrite s.pc (s.reg sr), by rw [← haddr]; rfl, rfl, ?_⟩
  calc (s.poke s.pc (s.reg sr)).readWord s.pc
      _ = (s.poke s.pc (s.reg sr)).peek s.pc := State.readWord_plain hpc
      _ = s.reg sr := State.poke_peek_same s.pc _ hwf

end

section
/-! PROOFS. Decoding and encoding (30_encoding.md). A word decodes to a well-formed instruction exactly when it agrees
with that instruction's word on the bits its format names (`decode_eq_iff`); the round trips and the ignored bits
follow. The spec's numbers are the model's fields and formats read as numbers. -/

namespace Sys2Proof

open Sys2Proof.Machine

/-! The rows of the tables. -/

/-- The opcode under which an instruction is encoded (R113). -/
def Instr.opcode : Instr → Opcode
  | .br .. => .br
  | .addR .. | .addI .. => .add
  | .ld .. => .ld
  | .st .. => .st
  | .jsr .. | .jsrr .. => .jsr
  | .andR .. | .andI .. => .and
  | .ldr .. => .ldr
  | .str .. => .str
  | .rti => .rti
  | .not .. => .not
  | .ldi .. => .ldi
  | .sti .. => .sti
  | .jmp .. => .jmp
  | .res => .res
  | .lea .. => .lea
  | .getc | .out | .puts | .inChar | .putsp | .halt | .trap .. => .trap

/-- The vector of a TRAP row (R131); any value for an instruction that has none. -/
def Instr.vector : Instr → BitVec 8
  | .getc => 0x20#8
  | .out => 0x21#8
  | .puts => 0x22#8
  | .inChar => 0x23#8
  | .putsp => 0x24#8
  | .halt => 0x25#8
  | .trap vect => vect
  | _ => 0#8

theorem opcodeOf_eq_iff {n : BitVec 4} {op : Opcode} : opcodeOf n = op ↔ n = opcodeNumber op :=
  ⟨fun h => by rw [← h, opcodeNumber_opcodeOf], fun h => by rw [h, opcodeOf_opcodeNumber]⟩

theorem regOf_eq_iff {n : BitVec 3} {r : Reg} : regOf n = r ↔ n = regIndex r :=
  ⟨fun h => by rw [← h, regIndex_regOf], fun h => by rw [h, regOf_regIndex]⟩

theorem trapOf_row (vect : BitVec 8) :
    (trapOf vect).opcode = .trap ∧ (trapOf vect).wellFormed = true ∧ (trapOf vect).vector = vect := by
  revert vect; decide

theorem trapOf_eq_iff {vect : BitVec 8} {i : Instr} (hop : i.opcode = .trap) (hwf : i.wellFormed = true) :
    trapOf vect = i ↔ vect = i.vector := by
  constructor
  · rintro rfl
    obtain ⟨-, -, hvector⟩ := trapOf_row vect
    exact hvector.symm
  · rintro rfl
    cases i with
    | getc | out | puts | inChar | putsp | halt => rfl
    | trap vect => exact trapOf_undefined ((Bool.not_eq_true' _).mp hwf)
    | _ => cases hop

theorem encode_of_trap {i : Instr} (hop : i.opcode = .trap) : encode i = wordTrap i.vector := by
  cases i with
  | getc | out | puts | inChar | putsp | halt | trap => rfl
  | _ => cases hop

theorem fieldOpcode_encode (i : Instr) : fieldOpcode (encode i) = opcodeNumber i.opcode := by
  cases i <;> simp [encode, Instr.opcode]

/-- Every word decodes to a well-formed instruction of its own opcode. -/
theorem decode_row (w : Word) :
    (decode w).opcode = opcodeOf (fieldOpcode w) ∧ (decode w).wellFormed = true := by
  rw [decode]
  cases opcodeOf (fieldOpcode w) with
  | add | and | jsr => dsimp only; split <;> exact ⟨rfl, rfl⟩
  | trap =>
    obtain ⟨hop, hwf, -⟩ := trapOf_row (fieldVect w)
    exact ⟨hop, hwf⟩
  | _ => exact ⟨rfl, rfl⟩

theorem decode_opcode (w : Word) : (decode w).opcode = opcodeOf (fieldOpcode w) := (decode_row w).1

theorem decode_wellFormed (w : Word) : (decode w).wellFormed = true := (decode_row w).2

/-! The bits that a format names are those of its fields. -/

/-- The fields that an instruction's format names (R114 to R124), each as its lowest bit and its length. -/
def namedFields : Instr → List (Nat × Nat)
  | .br .. | .ld .. | .st .. | .ldi .. | .sti .. | .lea .. => [(12, 4), (9, 3), (0, 9)]
  | .addR .. | .andR .. => [(12, 4), (9, 3), (6, 3), (5, 1), (0, 3)]
  | .addI .. | .andI .. => [(12, 4), (9, 3), (6, 3), (5, 1), (0, 5)]
  | .jsr .. => [(12, 4), (11, 1), (0, 11)]
  | .jsrr .. => [(12, 4), (11, 1), (6, 3)]
  | .ldr .. | .str .. => [(12, 4), (9, 3), (6, 3), (0, 6)]
  | .not .. => [(12, 4), (9, 3), (6, 3)]
  | .jmp .. => [(12, 4), (6, 3)]
  | .rti | .res => [(12, 4)]
  | .getc | .out | .puts | .inChar | .putsp | .halt | .trap .. => [(12, 4), (0, 8)]

/-- `namedFields` and the model's mask name the same bits. -/
theorem usedBits_getLsbD (i : Instr) : ∀ k < 16, (usedBits i).getLsbD k = true ↔
    ∃ f ∈ namedFields i, f.1 ≤ k ∧ k < f.1 + f.2 := by
  cases i <;> (dsimp only [usedBits, namedFields]; decide)

theorem opcode_mem_namedFields (i : Instr) : (12, 4) ∈ namedFields i := by
  cases i <;> exact List.mem_cons_self

theorem extract_eq_iff {v w : Word} {lo len : Nat} : v.extractLsb' lo len = w.extractLsb' lo len ↔
    ∀ k, lo ≤ k → k < lo + len → v.getLsbD k = w.getLsbD k := by
  constructor
  · intro h k hlo hk
    have hbit := congrArg (BitVec.getLsbD · (k - lo)) h
    simpa [Nat.sub_lt_left_of_lt_add hlo hk, Nat.add_sub_of_le hlo] using hbit
  · intro h
    refine BitVec.eq_of_getLsbD_eq fun k hk => ?_
    simp [hk, h (lo + k) (by omega) (by omega)]

theorem and_eq_and_iff {v w m : Word} : v &&& m = w &&& m ↔
    ∀ k < 16, m.getLsbD k = true → v.getLsbD k = w.getLsbD k := by
  constructor
  · intro h k _ hm
    simpa [hm] using congrArg (BitVec.getLsbD · k) h
  · intro h
    refine BitVec.eq_of_getLsbD_eq fun k hk => ?_
    cases hm : m.getLsbD k with
    | false => simp [hm]
    | true => simp [hm, h k hk hm]

/-- Agreement on the named bits is agreement on each named field. -/
theorem and_usedBits_eq_iff (i : Instr) (v w : Word) : v &&& usedBits i = w &&& usedBits i ↔
    ∀ f ∈ namedFields i, v.extractLsb' f.1 f.2 = w.extractLsb' f.1 f.2 := by
  simp only [and_eq_and_iff, extract_eq_iff]
  constructor
  · intro h f hf k hlo hk
    rcases Nat.lt_or_ge k 16 with hk16 | hk16
    · exact h k hk16 ((usedBits_getLsbD i k hk16).mpr ⟨f, hf, hlo, hk⟩)
    · rw [BitVec.getLsbD_of_ge v k hk16, BitVec.getLsbD_of_ge w k hk16]
  · intro h k hk16 hm
    obtain ⟨f, hf, hlo, hk⟩ := (usedBits_getLsbD i k hk16).mp hm
    exact h f hf k hlo hk

/-! The decoder by the named bits. -/

/-- The fields of R112 by their names. -/
theorem extract_fields (w : Word) :
    w.extractLsb' 12 4 = fieldOpcode w ∧ w.extractLsb' 9 3 = fieldHigh3 w ∧ w.extractLsb' 6 3 = fieldMid3 w ∧
    w.extractLsb' 0 3 = fieldLow3 w ∧ w.extractLsb' 5 1 = fieldImmFlag w ∧ w.extractLsb' 11 1 = fieldJsrFlag w ∧
    w.extractLsb' 0 5 = fieldImm5 w ∧ w.extractLsb' 0 6 = fieldOff6 w ∧ w.extractLsb' 0 8 = fieldVect w ∧
    w.extractLsb' 0 9 = fieldOff9 w ∧ w.extractLsb' 0 11 = fieldOff11 w :=
  ⟨rfl, rfl, rfl, rfl, rfl, rfl, rfl, rfl, rfl, rfl, rfl⟩

/-- Under one opcode a word decodes to `i` exactly when its variant bit and its operand fields are those of the
word of `i`. -/
theorem decode_eq_iff_of_opcode {w : Word} {i : Instr} (hop : fieldOpcode w = opcodeNumber i.opcode)
    (hwf : i.wellFormed = true) : decode w = i ↔
      ∀ f ∈ namedFields i, w.extractLsb' f.1 f.2 = (encode i).extractLsb' f.1 f.2 := by
  cases i with
  | br | ld | st | ldi | sti | lea | ldr | str | not | jmp | rti | res =>
    simp [decode, encode, Instr.opcode, namedFields, extract_fields, regHigh, regMid, regOf_eq_iff, hop]
  | addR | andR | addI | andI =>
    rcases BitVec.eq_zero_or_eq_one (fieldImmFlag w) with hflag | hflag <;>
      simp [decode, encode, Instr.opcode, namedFields, extract_fields, regHigh, regMid, regLow, regOf_eq_iff, hop,
        hflag]
  | jsr | jsrr =>
    rcases BitVec.eq_zero_or_eq_one (fieldJsrFlag w) with hflag | hflag <;>
      simp [decode, encode, Instr.opcode, namedFields, extract_fields, regMid, regOf_eq_iff, hop, hflag]
  | getc | out | puts | inChar | putsp | halt | trap =>
    rw [encode_of_trap rfl]
    simpa [decode, Instr.opcode, namedFields, extract_fields, hop] using trapOf_eq_iff rfl hwf

/-- A word decodes to a well-formed instruction exactly when it agrees with the instruction's word on the bits that
its format names (R114 to R126). -/
theorem decode_eq_iff {i : Instr} (hwf : i.wellFormed = true) (w : Word) :
    decode w = i ↔ w &&& usedBits i = encode i &&& usedBits i := by
  rw [and_usedBits_eq_iff]
  by_cases hop : fieldOpcode w = opcodeNumber i.opcode
  · exact decode_eq_iff_of_opcode hop hwf
  · constructor
    · rintro rfl
      exact absurd (opcodeOf_eq_iff.mp (decode_opcode w).symm) hop
    · intro h
      exact absurd ((h _ (opcode_mem_namedFields i)).trans (fieldOpcode_encode i)) hop

/-- Every word agrees with the word of what it decodes to on the named bits. -/
theorem and_usedBits_decode (w : Word) :
    w &&& usedBits (decode w) = encode (decode w) &&& usedBits (decode w) :=
  (decode_eq_iff (decode_wellFormed w) w).mp rfl

/-! The spec's numbers (00_scope.md R15; 30_encoding.md R130, R132). -/

theorem specField_toNat (w : Word) (hi lo : Nat) :
    specField w.toNat hi lo = (w.extractLsb' lo (hi - lo + 1)).toNat :=
  (field_toNat w lo _).symm

theorem regOf_eq_specReg (n : BitVec 3) : regOf n = specReg n.toNat := by
  revert n; decide

theorem trapOf_eq_specTrap (vect : BitVec 8) : trapOf vect = specTrap vect.toNat := by
  revert vect; decide

theorem decode_eq_specDecode (w : Word) : decode w = specDecode w.toNat := by
  have hopcode : specField w.toNat 15 12 = (opcodeNumber (opcodeOf (fieldOpcode w))).toNat := by
    rw [specField_toNat, opcodeNumber_opcodeOf]
    rfl
  rw [decode, specDecode, hopcode]
  simp only [specField_toNat, Nat.reduceSub, Nat.reduceAdd, extract_fields, BitVec.ofNat_toNat, BitVec.setWidth_eq,
    ← regOf_eq_specReg, ← trapOf_eq_specTrap]
  cases opcodeOf (fieldOpcode w) with
  | add | and =>
    rcases BitVec.eq_zero_or_eq_one (fieldImmFlag w) with hflag | hflag <;> rw [hflag] <;> rfl
  | jsr =>
    rcases BitVec.eq_zero_or_eq_one (fieldJsrFlag w) with hflag | hflag <;> rw [hflag] <;> rfl
  | _ => rfl

/-- Three opcode numbers of R113, for the words whose constant bits stand beside the opcode. -/
theorem opcodeNumber_toNat : (opcodeNumber .add).toNat = 1 ∧ (opcodeNumber .and).toNat = 5 ∧
    (opcodeNumber .not).toNat = 9 :=
  ⟨rfl, rfl, rfl⟩

/-- The number of a word is that of its format; the table writes the constant bits of ADD, AND, NOT and JSRR
first. -/
theorem encode_toNat (i : Instr) : (encode i).toNat = specWord i := by
  cases i with
  | br nzp off9 => exact (wordOff9_toNat .br nzp off9).trans (congrArg (· + off9.toNat) (Nat.zero_add _))
  | ld | st | ldi | sti | lea => exact wordOff9_toNat ..
  | ldr | str => exact wordBase_toNat ..
  | jmp baseR => exact wordBase_toNat .jmp 0#3 baseR 0#6
  | addR | andR => exact wordAluR_toNat ..
  | jsr off11 => exact wordJsr_toNat 1#1 off11
  | rti | res | getc | out | puts | inChar | putsp | halt => rfl
  | trap vect => exact wordTrap_toNat vect
  | addI | andI | not | jsrr =>
    simp only [encode, specWord, wordAluI_toNat, wordBase_toNat, wordJsr_toNat, append_toNat, opcodeNumber_toNat,
      BitVec.toNat_ofNat]
    omega

end Sys2Proof

open Sys2Proof Sys2Proof.Machine

/-- Settles O3: the word of `i` agrees with itself on the named bits. -/
theorem decodeOfEncode : Obligations.DecodeOfEncode :=
  fun i hwf => (decode_eq_iff hwf (encode i)).mpr rfl

/-- Settles O2: field by field, under each opcode. -/
theorem decodeFollowsTheAlgorithm : Obligations.DecodeFollowsTheAlgorithm :=
  decode_eq_specDecode

/-- Settles O4: what `w` decodes to is well formed, and `w` agrees with its word on the named bits. -/
theorem encodeOfDecodeOnUsedBits : Obligations.EncodeOfDecodeOnUsedBits :=
  fun w => ⟨decode_wellFormed w, (and_usedBits_decode w).symm⟩

/-- Settles O5: both words agree with the word of `decode w` on the named bits. -/
theorem unusedBitsIgnored : Obligations.UnusedBitsIgnored :=
  fun w v h => (decode_eq_iff (decode_wellFormed w) v).mpr (h.trans (and_usedBits_decode w))

/-- Settles O6: each format's word as a number, with its opcode. -/
theorem encodeFollowsTheFormulas : Obligations.EncodeFollowsTheFormulas :=
  encode_toNat

/-- Settles O1: the decoder evaluated at the seven words. -/
theorem sampleWordsDecode : Obligations.SampleWordsDecode := by
  unfold Obligations.SampleWordsDecode
  decide

end

section
/-! PROOFS. The instruction cycle (40_instruction_cycle.md R150 to R157): that a step answers and keeps memory
canonical, what it executes, and how its execution ends. -/

namespace Sys2Proof.Machine

/-! Every instruction answers, and keeps memory canonical. -/

/-- PUTS and PUTSP answer, because their walk does (44_trap.md R248(b)). -/
theorem writeString_answers (chars : Word → List Word) {s : State} (hwf : Memory.wf s.mem = true) :
    ∃ t, writeString chars s = .next t := by
  obtain ⟨ws, u, hwalk⟩ := stringWalk_answers (s.reg .r0) hwf
  exact ⟨u.emit (ws.flatMap chars), by rw [writeString, hwalk]⟩

/-- Only PUTS and PUTSP could fail to answer: every other instruction gives its next state outright. -/
theorem exec_answers (i : Instr) {s : State} (hwf : Memory.wf s.mem = true) : ∃ t, exec i s = .next t := by
  cases i with
  | puts | putsp => exact writeString_answers _ hwf
  | br | addR | addI | ld | st | jsr | jsrr | andR | andI | ldr | str | rti | not | ldi | sti | jmp | res | lea
  | getc | out | inChar | halt | trap => exact ⟨_, rfl⟩

theorem Reads.wf {s u : State} (h : Reads s u) (hwf : Memory.wf s.mem = true) : Memory.wf u.mem = true :=
  h.keeps (p := fun v => Memory.wf v.mem = true) (fun _ a => State.afterRead_wf a) hwf

/-- Each effect changes memory by reads and at most one store, which keep it canonical. -/
theorem Effect.wf {i : Instr} {s t : State} (h : Effect s i t) (hwf : Memory.wf s.mem = true) :
    Memory.wf t.mem = true := by
  cases h with
  | result _ _ _ hread | emit _ _ _ hread => exact hread.wf hwf
  | store a sr _ _ hread => exact Memory.wf_put a (s.reg sr) (hread.wf hwf)
  | jump | link | char | halt | raise => exact hwf

/-! What is executed, and how it ends (R152, R154). -/

theorem add16_one (a : Word) : add16 a 1#16 = BitVec.ofNat 16 ((a.toNat + 1) % 65536) :=
  BitVec.eq_of_toNat_eq (by simp [add16])

/-- The state that executes, with the incremented PC as a number. -/
theorem State.afterFetch_eq (s : State) :
    s.afterFetch = { s.afterRead s.pc with pc := BitVec.ofNat 16 ((s.pc.toNat + 1) % 65536) } := by
  rw [State.afterFetch, add16_one, State.setPc]

/-- From a running state only `halt` halts and only `raise` faults; every other effect leaves RUN alone. -/
theorem Effect.ending {i : Instr} {s t : State} (h : Effect s i t) (hrun : s.run = .running) :
    t.run = .running ∨ (i = .halt ∧ t.run = .halted) ∨
      (t.run = .faulted ∧ ∃ c, c ≠ .noFault ∧ t = s.raise c) := by
  cases h with
  | result _ _ _ hread | store _ _ _ _ hread | emit _ _ _ hread =>
    obtain ⟨m, n, rfl⟩ := hread.shape
    exact .inl hrun
  | jump | link | char => exact .inl hrun
  | halt => exact .inr (.inl ⟨rfl, rfl⟩)
  | raise c _ hc =>
    have hfault : c ≠ .noFault := by
      rintro rfl
      exact absurd hc (by decide)
    exact .inr (.inr ⟨rfl, c, hfault, rfl⟩)

end Sys2Proof.Machine

open Sys2Proof Sys2Proof.Machine

/-- Settles O60: the fetch keeps memory canonical, so the instruction answers, and its effect keeps it canonical
again; a terminal state answers itself. -/
theorem everyStepAnswers : Obligations.EveryStepAnswers := by
  intro s hwf
  by_cases hrun : s.run = .running
  · have hfetch : Memory.wf s.afterFetch.mem = true := State.afterRead_wf s.pc hwf
    obtain ⟨t, hexec⟩ := exec_answers (decode s.fetchWord) hfetch
    exact ⟨t, (step_running hrun).trans hexec, (exec_effect hexec).wf hfetch⟩
  · exact ⟨s, step_terminal hrun, hwf⟩

/-- Settles O42: both terminal run states answer the state itself. -/
theorem terminalStatesStay : Obligations.TerminalStatesStay :=
  fun _ hrun => step_terminal hrun

/-- Settles O41: the fetch as the spec's numbers, then the ending of the executed instruction's effect. -/
theorem stepRunsTheDecodedInstruction : Obligations.StepRunsTheDecodedInstruction := by
  constructor
  · intro s t hrun h
    rw [step_terminal hrun] at h
    cases h
    rfl
  · intro s hrun w u
    have hu : s.afterFetch = u := s.afterFetch_eq
    have hurun : u.run = .running := (s.afterRead_run s.pc).trans hrun
    exact ⟨hu ▸ step_running hrun, fun t hexec => (exec_effect hexec).ending hurun⟩

end

section
/-! PROOFS. ADD, AND and NOT (41_alu.md): a result and its flags written, nothing else changed, and the three
operations as numbers. -/

namespace Sys2Proof.Machine

/-- `R[DR] <- v; SetCC(DR)`, for the number of `v`: the destination and COND by their rule, the rest left alone
(10_state.md R42, R43). -/
theorem State.writeResult_resultWritten (s : State) (dr : Reg) {v : Word} {n : Nat} (hv : v.toNat = n) :
    ResultWritten s (s.writeResult dr v) dr n := by
  subst hv
  have hdest : ((s.writeResult dr v).reg dr).toNat = v.toNat := by rw [State.writeResult_reg_same]
  have hcond : (s.writeResult dr v).cond.toNat = specCond v.toNat := by
    rw [State.writeResult_cond, condOf_toNat]
  have hregs : RegsExcept [dr] s (s.writeResult dr v) := fun _ hr =>
    s.writeResult_reg_other dr v (List.ne_of_not_mem_cons hr)
  exact ⟨hdest, hcond, hregs, rfl, fun _ _ => rfl, ⟨rfl, rfl⟩, ⟨rfl, rfl⟩, ⟨rfl, rfl⟩⟩

/-! The operations as numbers (00_scope.md R16); `add16` with an immediate is `add16_signExtend_toNat`. -/

theorem add16_toNat (a b : Word) : (add16 a b).toNat = (a.toNat + b.toNat) % 65536 :=
  BitVec.toNat_add a b

theorem and16_toNat (a b : Word) : (and16 a b).toNat = Nat.land a.toNat b.toNat :=
  BitVec.toNat_and a b

theorem and16_signExtend_toNat {n : Nat} (a : Word) (v : BitVec n) (hn : n ≤ 16) :
    (and16 a (v.signExtend 16)).toNat = Nat.land a.toNat (specSext n v.toNat) := by
  rw [and16_toNat, signExtend_toNat_eq_specSext v hn]

theorem not16_toNat (a : Word) : (not16 a).toNat = 65535 - a.toNat :=
  BitVec.toNat_not

end Sys2Proof.Machine

open Sys2Proof.Machine

/-- Settles O14: the result written is the sum. -/
theorem addRegisterResult : Obligations.AddRegisterResult :=
  fun s dr sr1 sr2 => ⟨_, rfl, s.writeResult_resultWritten dr (add16_toNat (s.reg sr1) (s.reg sr2))⟩

/-- Settles O15: the result written is the sum with the sign-extended immediate. -/
theorem addImmediateResult : Obligations.AddImmediateResult :=
  fun s dr sr1 imm5 =>
    ⟨_, rfl, s.writeResult_resultWritten dr (add16_signExtend_toNat (s.reg sr1) imm5 (by decide))⟩

/-- Settles O16: the result written is the bitwise AND. -/
theorem andRegisterResult : Obligations.AndRegisterResult :=
  fun s dr sr1 sr2 => ⟨_, rfl, s.writeResult_resultWritten dr (and16_toNat (s.reg sr1) (s.reg sr2))⟩

/-- Settles O17: the result written is the AND with the sign-extended immediate. -/
theorem andImmediateResult : Obligations.AndImmediateResult :=
  fun s dr sr1 imm5 =>
    ⟨_, rfl, s.writeResult_resultWritten dr (and16_signExtend_toNat (s.reg sr1) imm5 (by decide))⟩

/-- Settles O18: the result written is the complement. -/
theorem notResult : Obligations.NotResult :=
  fun s dr sr1 => ⟨_, rfl, s.writeResult_resultWritten dr (not16_toNat (s.reg sr1))⟩

end

section
/-! PROOFS. BR, JMP, JSR and JSRR (42_control.md): the PC set, with or without the link, nothing else changed, and
the branch test bit by bit. -/

namespace Sys2Proof.Machine

/-! What a transfer changes (42_control.md R196). -/

/-- `PC <- v`, for the number of `v`. -/
theorem State.setPc_transferred (s : State) {v : Word} {n : Nat} (hv : v.toNat = n) :
    Transferred s (s.setPc v) [] n :=
  ⟨hv, fun _ _ => rfl, rfl, fun _ _ => rfl, ⟨rfl, rfl⟩, ⟨rfl, rfl⟩, ⟨rfl, rfl⟩⟩

@[simp] theorem State.link_reg_r7 (s : State) : s.link.reg .r7 = s.pc := s.setReg_reg_same .r7 s.pc

theorem State.link_reg_other (s : State) {r : Reg} (h : r ≠ .r7) : s.link.reg r = s.reg r :=
  s.setReg_reg_other s.pc h

/-- The link and then `PC <- v`, for the number of `v`. -/
theorem State.link_setPc_transferred (s : State) {v : Word} {n : Nat} (hv : v.toNat = n) :
    Transferred s (s.link.setPc v) [.r7] n :=
  have hregs : RegsExcept [.r7] s (s.link.setPc v) := fun _ hr => s.link_reg_other (List.ne_of_not_mem_cons hr)
  ⟨hv, hregs, rfl, fun _ _ => rfl, ⟨rfl, rfl⟩, ⟨rfl, rfl⟩, ⟨rfl, rfl⟩⟩

/-- The base register that JSRR reads after the link (42_control.md R194). -/
theorem State.link_reg_toNat (s : State) (r : Reg) :
    (s.link.reg r).toNat = if r = .r7 then s.pc.toNat else (s.reg r).toNat := by
  by_cases hr : r = .r7
  · rw [if_pos hr, hr, State.link_reg_r7]
  · rw [if_neg hr, State.link_reg_other s hr]

/-! The branch test (42_control.md R190). -/

/-- A branch is taken when the mask and COND share a set bit. -/
theorem branchTaken_iff {nzp cond : BitVec 3} :
    branchTaken nzp cond = true ↔ ∃ k, k < 3 ∧ nzp.getLsbD k = true ∧ cond.getLsbD k = true := by
  have hzero : nzp &&& cond = 0b000#3 ↔ ∀ k, k < 3 → (nzp &&& cond).getLsbD k = false := by
    simpa using BitVec.eq_of_getLsbD_eq_iff (x := nzp &&& cond) (y := 0b000#3)
  rw [branchTaken, bne_iff_ne, ne_eq, hzero]
  simp

/-- Taken or not, BR sets the PC: to the target, or to the PC it already is. -/
theorem execBr_eq_setPc (nzp : BitVec 3) (off9 : BitVec 9) (s : State) :
    execBr nzp off9 s = .next (s.setPc (if branchTaken nzp s.cond then pcRelative s off9 else s.pc)) := by
  by_cases htaken : branchTaken nzp s.cond = true
  · rw [execBr, if_pos htaken, if_pos htaken]
  · rw [execBr, if_neg htaken, if_neg htaken]
    rfl

/-- Each bit of a legal COND says which flag it is (10_state.md R41, R45). -/
theorem legalCond_getLsbD_iff {c : BitVec 3} (h : legalCond c = true) :
    (c.getLsbD 2 = true ↔ c = condNeg) ∧ (c.getLsbD 1 = true ↔ c = condZro) ∧
      (c.getLsbD 0 = true ↔ c = condPos) := by
  decide +revert

/-- For a legal COND the mask meets it in n and NEG, z and ZRO, or p and POS. -/
theorem exists_common_bit_iff_of_legalCond {nzp cond : BitVec 3} (h : legalCond cond = true) :
    (∃ k, k < 3 ∧ nzp.getLsbD k = true ∧ cond.getLsbD k = true) ↔
      (nzp.getLsbD 2 = true ∧ cond = condNeg) ∨ (nzp.getLsbD 1 = true ∧ cond = condZro) ∨
        (nzp.getLsbD 0 = true ∧ cond = condPos) := by
  obtain ⟨hneg, hzro, hpos⟩ := legalCond_getLsbD_iff h
  rw [← hneg, ← hzro, ← hpos]
  constructor
  · rintro ⟨k, hk, hbits⟩
    interval_cases k
    · exact .inr (.inr hbits)
    · exact .inr (.inl hbits)
    · exact .inl hbits
  · rintro (hbits | hbits | hbits)
    · exact ⟨2, by decide, hbits⟩
    · exact ⟨1, by decide, hbits⟩
    · exact ⟨0, by decide, hbits⟩

end Sys2Proof.Machine

open Sys2Proof Sys2Proof.Machine

/-- Settles O19: BR sets the PC by the branch test, which compares the mask with COND bit by bit. -/
theorem branchFollowsItsRule : Obligations.BranchFollowsItsRule := by
  intro s nzp off9
  refine ⟨⟨_, execBr_eq_setPc nzp off9 s, s.setPc_transferred ?_⟩, exists_common_bit_iff_of_legalCond⟩
  rw [apply_ite BitVec.toNat, pcRelative_toNat]
  simp only [branchTaken_iff]

/-- Settles O20: JMP is the transfer to the base register. -/
theorem jumpFollowsItsRule : Obligations.JumpFollowsItsRule :=
  fun s _ => ⟨_, rfl, s.setPc_transferred rfl⟩

/-- Settles O21: the link, then the transfer; a later JMP R7 goes to the PC that was linked. -/
theorem jsrFollowsItsRule : Obligations.JsrFollowsItsRule := by
  intro s off11
  have htarget : (add16 s.pc (sext11 off11)).toNat = (s.pc.toNat + specSext 11 off11.toNat) % 65536 :=
    add16_signExtend_toNat s.pc off11 (by decide)
  have hlink : (s.link.setPc (add16 s.pc (sext11 off11))).reg .r7 = s.pc := s.link_reg_r7
  exact ⟨_, rfl, hlink, s.link_setPc_transferred htarget, fun u hu => ⟨_, rfl, hu.trans hlink⟩⟩

/-- Settles O22: the link, then the transfer to the base register as it reads after the link. -/
theorem jsrrFollowsItsRule : Obligations.JsrrFollowsItsRule :=
  fun s baseR => ⟨_, rfl, s.link_reg_r7, s.link_setPc_transferred (s.link_reg_toNat baseR)⟩

end

section
/-! PROOFS. LD, LDI, LDR, LEA, ST, STI and STR (43_load_store.md): the address as a number, then a result written or
a word stored, against the state that the reads before it leave. -/

namespace Sys2Proof.Machine

theorem baseOffset_toNat (s : State) (baseR : Reg) (off6 : BitVec 6) :
    (baseOffset s baseR off6).toNat = ((s.reg baseR).toNat + specSext 6 off6.toNat) % 65536 :=
  add16_signExtend_toNat (s.reg baseR) off6 (by decide)

/-- The end of LD, LDI and LDR: the word read is the result, and the rest is as the read leaves it
(43_load_store.md R219). -/
theorem State.load_resultWritten (s : State) (dr : Reg) (ea : Word) :
    ResultWritten (s.afterRead ea) (s.load dr ea) dr (s.readWord ea).toNat :=
  (s.afterRead ea).writeResult_resultWritten dr rfl

end Sys2Proof.Machine

open Sys2Proof.Machine

/-- Settles O23: the load from the PC-relative address. -/
theorem ldFollowsItsRule : Obligations.LdFollowsItsRule :=
  fun s dr off9 => ⟨pcRelative_toNat s off9, _, rfl, s.load_resultWritten dr (pcRelative s off9)⟩

/-- Settles O24: the load from the pointer, in the state that the pointer's read leaves. -/
theorem ldiFollowsItsRule : Obligations.LdiFollowsItsRule :=
  fun s dr off9 =>
    have hdatum := (s.afterRead (pcRelative s off9)).load_resultWritten dr (s.readWord (pcRelative s off9))
    ⟨pcRelative_toNat s off9, _, rfl, hdatum⟩

/-- Settles O25: the load from base plus offset. -/
theorem ldrFollowsItsRule : Obligations.LdrFollowsItsRule :=
  fun s dr baseR off6 =>
    ⟨baseOffset_toNat s baseR off6, _, rfl, s.load_resultWritten dr (baseOffset s baseR off6)⟩

/-- Settles O26: the result written is the address itself, with no read before it. -/
theorem leaFollowsItsRule : Obligations.LeaFollowsItsRule :=
  fun s dr off9 => ⟨_, rfl, s.writeResult_resultWritten dr (pcRelative_toNat s off9)⟩

/-- Settles O27: the plain store at the PC-relative address. -/
theorem stFollowsItsRule : Obligations.StFollowsItsRule :=
  fun s sr off9 hwf =>
    ⟨pcRelative_toNat s off9, _, rfl, memWriteIsAPlainStore s (pcRelative s off9) (s.reg sr) hwf⟩

/-- Settles O28: the plain store at the pointer; the pointer's read keeps the memory canonical. -/
theorem stiFollowsItsRule : Obligations.StiFollowsItsRule := by
  intro s sr off9 hwf
  have hread : Memory.wf (s.afterRead (pcRelative s off9)).mem = true := State.afterRead_wf _ hwf
  exact ⟨pcRelative_toNat s off9, _, rfl, memWriteIsAPlainStore _ (s.readWord (pcRelative s off9)) (s.reg sr) hread⟩

/-- Settles O29: the plain store at base plus offset. -/
theorem strFollowsItsRule : Obligations.StrFollowsItsRule :=
  fun s sr baseR off6 hwf =>
    ⟨baseOffset_toNat s baseR off6, _, rfl, memWriteIsAPlainStore s (baseOffset s baseR off6) (s.reg sr) hwf⟩

end

section
/-! PROOFS. The TRAP sub-operations (44_trap.md): the character read both ways, what follows a string walk and the
walk over a plain string, the output of OUT and HALT, and the vectors that name nothing. -/

namespace Sys2Proof.Machine

/-! The character read of GETC and IN (44_trap.md R242, R245). -/

theorem State.readChar_of_getElem? {s : State} {c : Byte} (vect : BitVec 8) (hc : s.input[s.inpos]? = some c) :
    s.readChar vect = s.advance.setReg .r0 (zext8 c) := by
  rw [State.readChar, State.inNext, hc]

theorem State.readChar_exhausted {s : State} (vect : BitVec 8) (h : s.input.length ≤ s.inpos) :
    s.readChar vect = s.raise (.inputExhausted vect) := by
  rw [State.readChar, State.inNext_exhausted h]

/-! The string output of PUTS and PUTSP (44_trap.md R244, R246, R248). -/

/-- A walk only rewrites memory and moves the cursor, so an output after it differs from `s` in nothing more but
OUT. -/
theorem StringRead.emit_stringEmitted {s u : State} {a : Word} {ws : List Word} (h : StringRead s a ws u)
    (codes : List Word) : StringEmitted s u (u.emit codes) (codes.map BitVec.toNat) := by
  obtain ⟨m, n, rfl⟩ := h.shape
  exact ⟨List.map_append, fun _ _ => rfl, rfl, rfl, ⟨rfl, rfl⟩, ⟨rfl, rfl⟩, fun _ _ => rfl, rfl⟩

/-- From a canonical memory the walk ends, and then the characters of its words are emitted. -/
theorem writeString_emits (chars : Word → List Word) {s : State} (hwf : Memory.wf s.mem = true) :
    ∃ ws u, StringRead s (s.reg .r0) ws u ∧
      nextSatisfies (writeString chars s) fun t =>
        StringEmitted s u t (ws.flatMap fun w => (chars w).map BitVec.toNat) := by
  obtain ⟨t, hnext⟩ := writeString_answers chars hwf
  obtain ⟨ws, u, hread, rfl⟩ := writeString_next hnext
  exact ⟨ws, u, hread, _, hnext, List.map_flatMap ▸ hread.emit_stringEmitted (ws.flatMap chars)⟩

theorem lowByte_toNat (w : Word) : (lowByte w).toNat = w.toNat % 256 := by
  rw [lowByte, field_toNat]
  omega

theorem highByte_toNat (w : Word) : (highByte w).toNat = w.toNat / 256 := by
  rw [highByte, field_toNat]
  omega

/-- The characters that PUTSP makes of a word, as numbers (44_trap.md R246). -/
theorem unpackWord_toNat (w : Word) : (unpackWord w).map BitVec.toNat = specUnpack w.toNat := by
  have hzero : highByte w = 0x00#8 ↔ w.toNat / 256 = 0 := by
    rw [← highByte_toNat, ← BitVec.toNat_inj]
    rfl
  by_cases hhigh : w.toNat / 256 = 0
  · simp [unpackWord, specUnpack, hzero, hhigh, zext8_toNat, lowByte_toNat]
  · simp [unpackWord, specUnpack, hzero, hhigh, zext8_toNat, lowByte_toNat, highByte_toNat]

/-- The `k`-th address from the next one on is the `k + 1`-st from this one on. -/
theorem add16_one_add_ofNat (a : Word) (k : Nat) :
    add16 a 1#16 + BitVec.ofNat 16 k = a + BitVec.ofNat 16 (k + 1) := by
  rw [add16, BitVec.add_assoc, Nat.add_comm k 1, BitVec.ofNat_add]

/-- A walk over `n` non-zero words and a zero word, none of them the status word, collects those words as they stand
in memory and changes nothing; any fuel above `n` is enough. -/
theorem stringWalk_plain {n fuel : Nat} {a : Word} {s : State} (hfuel : n < fuel)
    (hplain : ∀ k, k ≤ n → a + BitVec.ofNat 16 k ≠ s.cfg.kbsrAddr)
    (hword : ∀ k, k < n → s.peek (a + BitVec.ofNat 16 k) ≠ 0x0000#16)
    (hend : s.peek (a + BitVec.ofNat 16 n) = 0x0000#16) :
    stringWalk fuel a s = some ((List.range n).map fun k => s.peek (a + BitVec.ofNat 16 k), s) := by
  induction fuel generalizing n a with
  | zero => exact absurd hfuel n.not_lt_zero
  | succ fuel ih =>
    have hfirst : a ≠ s.cfg.kbsrAddr := by simpa using hplain 0 n.zero_le
    rw [stringWalk, State.readWord_plain hfirst, State.afterRead_plain hfirst]
    cases n with
    | zero =>
      have hzero : s.peek a = 0x0000#16 := by simpa using hend
      simp [hzero]
    | succ n =>
      have hne : s.peek a ≠ 0x0000#16 := by simpa using hword 0 n.succ_pos
      have hrest := ih (n := n) (a := add16 a 1#16) (Nat.lt_of_succ_lt_succ hfuel)
        (fun k hk => add16_one_add_ofNat a k ▸ hplain (k + 1) (Nat.succ_le_succ hk))
        (fun k hk => add16_one_add_ofNat a k ▸ hword (k + 1) (Nat.succ_lt_succ hk))
        (add16_one_add_ofNat a n ▸ hend)
      simp [hne, hrest, add16_one_add_ofNat, List.range_succ_eq_map, Function.comp_def]

/-! TRAP with an undefined vector (44_trap.md R249; 30_encoding.md R130). -/

theorem definedVector_eq_false_iff {vect : BitVec 8} :
    definedVector vect = false ↔ vect.toNat < 0x20 ∨ 0x25 < vect.toNat := by
  simp only [definedVector, Bool.and_eq_false_iff, decide_eq_false_iff_not, Nat.not_le]

/-- Every word with opcode 15 is the TRAP of its low byte. -/
theorem decode_of_opcode_trap {w : Word} (h : w.toNat / 4096 = 15) :
    decode w = trapOf (BitVec.ofNat 8 (w.toNat % 256)) := by
  have hop : fieldOpcode w = opcodeNumber .trap := field_eq (congrArg (· % 16) h)
  have hvect : fieldVect w = BitVec.ofNat 8 (w.toNat % 256) := field_eq (by simp)
  rw [decode, opcodeOf_eq_iff.mpr hop, hvect]

end Sys2Proof.Machine

open Sys2Proof Sys2Proof.Machine

/-- Settles O33: each word of the walk is its own character. -/
theorem putsWritesItsString : Obligations.PutsWritesItsString := by
  intro s hwf
  obtain ⟨ws, u, hread, hemit⟩ := writeString_emits (fun w => [w]) hwf
  exact ⟨ws, u, hread, List.flatMap_pure_eq_map BitVec.toNat ws ▸ hemit⟩

/-- Settles O34: each word of the walk is unpacked into its bytes. -/
theorem putspWritesItsString : Obligations.PutspWritesItsString := by
  intro s hwf
  obtain ⟨ws, u, hread, hemit⟩ := writeString_emits unpackWord hwf
  simp only [unpackWord_toNat] at hemit
  exact ⟨ws, u, hread, hemit⟩

/-- Settles O35: one lap's fuel is more than the plain walk needs. -/
theorem putsOnAPlainString : Obligations.PutsOnAPlainString := by
  intro s n hn hplain hword hend
  have hfuel : n < s.walkFuel := hn.trans_le (Nat.le_mul_of_pos_right memoryWords (Nat.succ_pos _))
  change writeString (fun w => [w]) s = _
  rw [writeString, stringWalk_plain hfuel hplain hword hend]
  simp only [List.flatMap_singleton']
  rfl

/-- Settles O30: both read the character under their own vector, which only a fault shows. -/
theorem characterReadDelivers : Obligations.CharacterReadDelivers := by
  intro s i c hi hc
  have hexec : exec i s = .next (s.advance.setReg .r0 (zext8 c)) := by
    rcases hi with rfl | rfl
    · exact congrArg _ (State.readChar_of_getElem? 0x20#8 hc)
    · exact congrArg _ (State.readChar_of_getElem? 0x23#8 hc)
  have hr0 : ((s.advance.setReg .r0 (zext8 c)).reg .r0).toNat = c.toNat := by
    rw [State.setReg_reg_same, zext8_toNat]
  have hregs : RegsExcept [.r0] s (s.advance.setReg .r0 (zext8 c)) := fun _ hr =>
    s.advance.setReg_reg_other (zext8 c) (List.ne_of_not_mem_cons hr)
  exact ⟨_, hexec, hr0, rfl, hregs, rfl, rfl, fun _ _ => rfl, rfl, ⟨rfl, rfl⟩, ⟨rfl, rfl⟩⟩

/-- Settles O31: the read raises with the vector of the instruction. -/
theorem characterReadFaultsWhenExhausted : Obligations.CharacterReadFaultsWhenExhausted :=
  fun _ hnone =>
    ⟨congrArg _ (State.readChar_exhausted 0x20#8 hnone), congrArg _ (State.readChar_exhausted 0x23#8 hnone)⟩

/-- Settles O32: OUT emits R0 and nothing else. -/
theorem outEmitsR0 : Obligations.OutEmitsR0 :=
  fun s => ⟨_, rfl, s.emit_out [s.reg .r0], fun _ _ => rfl, rfl, rfl, fun _ _ => rfl, rfl, ⟨rfl, rfl⟩, ⟨rfl, rfl⟩⟩

/-- Settles O36: HALT emits its text and then sets RUN. -/
theorem haltEmitsAndHalts : Obligations.HaltEmitsAndHalts :=
  fun s => ⟨_, rfl, s.emit_out s.cfg.haltText, rfl, rfl, fun _ _ => rfl, rfl, rfl, fun _ _ => rfl, rfl, ⟨rfl, rfl⟩⟩

/-- Settles O37: the generic TRAP has an empty meaning, and the trap table has no row for such a low byte. -/
theorem undefinedTrapDoesNothing : Obligations.UndefinedTrapDoesNothing := by
  refine ⟨fun _ _ _ => rfl, fun w hop hvect => ?_⟩
  have hundefined : definedVector (BitVec.ofNat 8 (w.toNat % 256)) = false :=
    definedVector_eq_false_iff.mpr (by simpa using hvect)
  rw [decode_of_opcode_trap hop, trapOf_undefined hundefined]

end

section
/-! PROOFS. The faulting opcodes RTI and RES (45_reserved.md): the words of an opcode, and the state that a raise
leaves. -/

namespace Sys2Proof.Machine

/-- `instr[15:12]` of R112 as a quotient selects the row of the opcode table (R113). -/
theorem opcodeOf_fieldOpcode {w : Word} {op : Opcode} (h : w.toNat / 4096 = (opcodeNumber op).toNat) :
    opcodeOf (fieldOpcode w) = op := by
  have hnumber : w.toNat / 2 ^ 12 % 2 ^ 4 = (opcodeNumber op).toNat := by omega
  exact opcodeOf_eq_iff.mpr (field_eq hnumber)

theorem decode_of_opcode_rti {w : Word} (h : w.toNat / 4096 = 8) : decode w = .rti := by
  rw [decode, opcodeOf_fieldOpcode (op := .rti) h]

theorem decode_of_opcode_res {w : Word} (h : w.toNat / 4096 = 13) : decode w = .res := by
  rw [decode, opcodeOf_fieldOpcode (op := .res) h]

/-- Nothing runs after a raise: the run state is terminal (40_instruction_cycle.md R157). -/
theorem State.raise_step {s u : State} {c : Cause} (h : step (s.raise c) = .next u) : u = s.raise c := by
  rcases step_next_cases h with ⟨hrun, -⟩ | ⟨-, hu⟩
  · cases hrun
  · exact hu

end Sys2Proof.Machine

open Sys2Proof Sys2Proof.Machine

/-- Settles O38: the fetched word decodes to RES, whose raise in the state after the fetch is terminal. -/
theorem resRaisesDecodeFault : Obligations.ResRaisesDecodeFault := by
  refine ⟨fun _ => decode_of_opcode_res, fun _ => rfl, fun s hrun hword => ?_⟩
  have hdecode : decode s.fetchWord = .res := decode_of_opcode_res hword
  have hstep : step s = .next (s.afterFetch.raise (.decodeFault 13#4)) := by
    rw [step_running hrun, hdecode]
    rfl
  exact ⟨_, hstep, rfl, fun _ => State.raise_step⟩

/-- Settles O39: opcode 8 selects RTI, which only raises. -/
theorem rtiRaisesDecodeFault : Obligations.RtiRaisesDecodeFault :=
  ⟨fun _ => decode_of_opcode_rti, fun _ => rfl⟩

end

section
/-! PROOFS. The faults and the run state (60_exceptions.md R290 to R300): which instructions raise and with what
cause, that a raise is all a faulting step does, and how RUN moves. -/

namespace Sys2Proof.Machine

/-! The causes (60_exceptions.md R290 to R292). -/

/-- `Raises s i c`: instruction `i`, executed in `s`, raises the cause `c`; one constructor for each cause of R290. -/
inductive Raises (s : State) : Instr → Cause → Prop
  | rti : Raises s .rti (.decodeFault (opcodeNumber .rti))
  | res : Raises s .res (.decodeFault (opcodeNumber .res))
  | getc : s.input.length ≤ s.inpos → Raises s .getc (.inputExhausted 0x20#8)
  | inChar : s.input.length ≤ s.inpos → Raises s .inChar (.inputExhausted 0x23#8)

/-- A raise is the whole effect of such an instruction. -/
theorem Raises.exec_eq {i : Instr} {s : State} {c : Cause} (h : Raises s i c) : exec i s = .next (s.raise c) := by
  cases h with
  | rti | res => rfl
  | getc hnone | inChar hnone => exact congrArg _ (State.readChar_exhausted _ hnone)

/-- The instructions that raise, as the rows of R300 name them. -/
theorem exists_raises_iff {i : Instr} {s : State} : (∃ c, Raises s i c) ↔
    i = .rti ∨ i = .res ∨ ((i = .getc ∨ i = .inChar) ∧ s.input.length ≤ s.inpos) := by
  constructor
  · rintro ⟨c, h⟩
    cases h with
    | rti | res => simp
    | getc hnone | inChar hnone => simp [hnone]
  · rintro (rfl | rfl | ⟨rfl | rfl, hnone⟩)
    · exact ⟨_, .rti⟩
    · exact ⟨_, .res⟩
    · exact ⟨_, .getc hnone⟩
    · exact ⟨_, .inChar hnone⟩

/-- RTI and RES raise the opcode that stands in their word (R291). -/
theorem Raises.of_decode {w : Word} (s : State) (h : decode w = .rti ∨ decode w = .res) :
    Raises s (decode w) (.decodeFault (BitVec.ofNat 4 (w.toNat / 4096))) := by
  have hword : BitVec.ofNat 4 (w.toNat / 4096) = opcodeNumber (decode w).opcode := by
    rw [decode_opcode, opcodeNumber_opcodeOf]
    exact (field_eq (by simp)).symm
  rw [hword]
  rcases h with h | h <;> rw [h]
  · exact .rti
  · exact .res

/-! How an execution leaves RUN (R300). -/

theorem State.afterFetch_run (s : State) : s.afterFetch.run = s.run := s.afterRead_run s.pc

theorem Reads.run {s u : State} (h : Reads s u) : u.run = s.run := by
  obtain ⟨m, n, rfl⟩ := h.shape
  rfl

/-- In a running state a character read faults only at exhausted input. -/
theorem State.readChar_faulted {s : State} {vect : BitVec 8} (hrun : s.run = .running)
    (hfault : (s.readChar vect).run = .faulted) : s.input.length ≤ s.inpos := by
  by_contra hleft
  rw [State.readChar, State.inNext_available (Nat.not_le.mp hleft)] at hfault
  cases hfault.symm.trans hrun

/-- From a running state an instruction faults exactly when it raises: each of the others leaves RUN alone or
halts. -/
theorem exec_faulted_iff {i : Instr} {s t : State} (hrun : s.run = .running) (h : exec i s = .next t) :
    t.run = .faulted ↔ ∃ c, Raises s i c := by
  constructor
  · intro hfault
    cases i with
    | rti => exact ⟨_, .rti⟩
    | res => exact ⟨_, .res⟩
    | getc =>
      cases h
      exact ⟨_, .getc (State.readChar_faulted hrun hfault)⟩
    | inChar =>
      cases h
      exact ⟨_, .inChar (State.readChar_faulted hrun hfault)⟩
    | halt =>
      cases h
      cases hfault
    | puts | putsp =>
      obtain ⟨ws, u, hread, rfl⟩ := writeString_next h
      cases hfault.symm.trans (hread.reads.run.trans hrun)
    | ld | ldr | sti =>
      cases h
      cases hfault.symm.trans ((s.afterRead_run _).trans hrun)
    | ldi =>
      cases h
      cases hfault.symm.trans ((State.afterRead_run _ _).trans ((s.afterRead_run _).trans hrun))
    | br nzp off9 =>
      cases (execBr_eq_setPc nzp off9 s).symm.trans h
      cases hfault.symm.trans hrun
    | addR | addI | andR | andI | not | lea | st | str | jmp | jsr | jsrr | out | trap =>
      cases h
      cases hfault.symm.trans hrun
  · rintro ⟨c, hraise⟩
    cases hraise.exec_eq.symm.trans h
    rfl

/-- From a running state HALT halts, and nothing else does. -/
theorem exec_halted_iff {i : Instr} {s t : State} (hrun : s.run = .running) (h : exec i s = .next t) :
    t.run = .halted ↔ i = .halt := by
  constructor
  · intro hhalt
    rcases (exec_effect h).ending hrun with hr | ⟨hi, -⟩ | ⟨hr, -⟩
    · cases hhalt.symm.trans hr
    · exact hi
    · cases hhalt.symm.trans hr
  · rintro rfl
    cases h
    rfl

/-! The launch (70_reset_and_hazards.md R330, R334). -/

/-- Loading an image only rewrites memory. -/
theorem State.loadWords_shape (ws : List Word) (s : State) (a : Word) :
    ∃ m, s.loadWords a ws = { s with mem := m } := by
  induction ws generalizing s a with
  | nil => exact ⟨s.mem, rfl⟩
  | cons w rest ih =>
    obtain ⟨m, hrest⟩ := ih (s.poke a w) (add16 a 1#16)
    exact ⟨m, hrest⟩

/-- A launch that answers was admissible, and answers the reset state with its parameters, the loaded words and the
initial PC. -/
theorem launch_next {cfg : Config} {codes : List Nat} {img : Image} {t : State}
    (h : launch cfg codes img = .next t) :
    cfg.wf = true ∧ inputCodesFit codes = true ∧ img.admissible = true ∧
      t = (({ State.reset with cfg := cfg, input := codes.map (BitVec.ofNat 8) } : State).loadWords
        img.startAddress img.words).setPc pcStart := by
  rw [launch] at h
  split_ifs at h with hcfg hcodes himg
  cases h
  exact ⟨by simpa using hcfg, by simpa using hcodes, by simpa using himg, rfl⟩

theorem launch_run {cfg : Config} {codes : List Nat} {img : Image} {t : State}
    (h : launch cfg codes img = .next t) : t.run = .running := by
  obtain ⟨-, -, -, rfl⟩ := launch_next h
  obtain ⟨m, hload⟩ := State.loadWords_shape img.words
    { State.reset with cfg := cfg, input := codes.map (BitVec.ofNat 8) } img.startAddress
  rw [hload]
  rfl

end Sys2Proof.Machine

open Sys2Proof Sys2Proof.Machine

/-- Settles O40: a faulting execution ends in a raise in the state after the fetch, and a raise is terminal. -/
theorem faultsArePrecise : Obligations.FaultsArePrecise := by
  intro s t hrun h hfault
  rw [step_running hrun] at h
  rcases (exec_effect h).ending (s.afterFetch_run.trans hrun) with hr | ⟨-, hr⟩ | ⟨-, c, hc, rfl⟩
  · cases hfault.symm.trans hr
  · cases hfault.symm.trans hr
  · exact ⟨rfl, hc, fun _ => State.raise_step⟩

/-- Settles O43: what the fetched instruction does to RUN in the state after the fetch; the raised causes; the
launch from the reset state; the terminal states. -/
theorem runStateTransitions : Obligations.RunStateTransitions := by
  refine ⟨fun s t hrun h => ?_, fun _ _ _ _ => launch_run, fun s t hrun h => ?_⟩
  · rw [step_running hrun] at h
    have hfetched : s.afterFetch.run = .running := s.afterFetch_run.trans hrun
    have hinput : s.afterFetch.input = s.input := s.afterFetch_sameParams.1
    have hcause {c : Cause} (hraise : Raises s.afterFetch (decode s.fetchWord) c) : t.cause = c := by
      cases hraise.exec_eq.symm.trans h
      rfl
    rw [← hinput]
    exact ⟨exec_halted_iff hfetched h, (exec_faulted_iff hfetched h).trans exists_raises_iff,
      fun hi => hcause (.of_decode _ hi), fun ⟨hi, hnone⟩ => hcause (hi ▸ .getc hnone),
      fun ⟨hi, hnone⟩ => hcause (hi ▸ .inChar hnone)⟩
  · rw [step_terminal hrun] at h
    cases h
    rfl

end

section
/-! PROOFS. Reset, launch and the fetch at the status address (70_reset_and_hazards.md R330 to R336, R344): where the
image load puts its words, which launches are answered, and the two words that a fetch at `KBSR_ADDR` can deliver. -/

namespace Sys2Proof.Machine

/-! What makes a launch admissible (00_scope.md R9, 10_state.md R52, 70_reset_and_hazards.md R334). -/

theorem Config.wf_iff {c : Config} : c.wf = true ↔ c.kbsrAddr ≠ c.kbdrAddr := bne_iff_ne

theorem inputCodesFit_iff {codes : List Nat} : inputCodesFit codes = true ↔ ∀ c ∈ codes, c ≤ 255 := by
  simp [inputCodesFit]

theorem Image.admissible_iff {img : Image} :
    img.admissible = true ↔ img.startAddress.toNat + img.words.length ≤ 65536 := decide_eq_true_iff

/-! The image load (R334). -/

/-- How far `q` lies beyond the next address: a whole lap for `a` itself, one less than beyond `a` for every other
address. -/
theorem sub_add16_one_toNat (q a : Word) :
    (q - add16 a 1#16).toNat = if q = a then 65535 else (q - a).toNat - 1 := by
  rw [add16]
  split <;> bv_omega

/-- `MEM[q]` after the load: the word as far into the image as `q` lies beyond the start address, and where the image
has none the word of before. -/
theorem State.loadWords_peek (ws : List Word) {s : State} (a q : Word) (hwf : Memory.wf s.mem = true)
    (hlen : ws.length ≤ 65536) : (s.loadWords a ws).peek q = ws[(q - a).toNat]?.getD (s.peek q) := by
  induction ws generalizing s a with
  | nil => simp [State.loadWords]
  | cons w rest ih =>
    have hrest : rest.length < 65536 := hlen
    rw [State.loadWords, ih _ (Memory.wf_put a w hwf) hrest.le, sub_add16_one_toNat, State.poke_peek a q w hwf]
    by_cases hq : q = a
    · have hpast : rest[65535]? = none := List.getElem?_eq_none (Nat.le_of_lt_succ hrest)
      simp [hq, hpast]
    · have hbeyond : (q - a).toNat ≠ 0 := by bv_omega
      rw [if_neg hq, if_neg hq, List.getElem?_cons, if_neg hbeyond]

/-- A word of an image that does not run past 0xFFFF stands at its own address. -/
theorem State.loadWords_peek_image {ws : List Word} {s : State} {a : Word} (hwf : Memory.wf s.mem = true)
    (hfit : a.toNat + ws.length ≤ 65536) {k : Nat} (hk : k < ws.length) :
    (s.loadWords a ws).peek (BitVec.ofNat 16 (a.toNat + k)) = ws[k] := by
  have hbeyond : (BitVec.ofNat 16 (a.toNat + k) - a).toNat = k := by bv_omega
  rw [State.loadWords_peek ws a _ hwf (by omega), hbeyond, List.getElem?_eq_getElem hk, Option.getD_some]

/-- Outside such an image the load changes no word. -/
theorem State.loadWords_peek_outside {ws : List Word} {s : State} {a q : Word} (hwf : Memory.wf s.mem = true)
    (hfit : a.toNat + ws.length ≤ 65536) (hq : q.toNat < a.toNat ∨ a.toNat + ws.length ≤ q.toNat) :
    (s.loadWords a ws).peek q = s.peek q := by
  have hbeyond : ws.length ≤ (q - a).toNat := by
    rcases hq with hbefore | hafter <;> bv_omega
  rw [State.loadWords_peek ws a q hwf (by omega), List.getElem?_eq_none hbeyond, Option.getD_none]

theorem State.Inv.loadWords (ws : List Word) {s : State} (hs : s.Inv) (a : Word) : (s.loadWords a ws).Inv := by
  induction ws generalizing s a with
  | nil => exact hs
  | cons w rest ih => exact ih (hs.memWrite a w) (add16 a 1#16)

/-! The launch (R330). -/

/-- Reset with its parameters, before the image load (R331 to R333). -/
def resetWith (cfg : Config) (codes : List Nat) : State :=
  { State.reset with cfg := cfg, input := codes.map (BitVec.ofNat 8) }

theorem resetWith_inv {cfg : Config} (hcfg : cfg.wf = true) (codes : List Nat) : (resetWith cfg codes).Inv :=
  ⟨rfl, Nat.zero_le _, rfl, rfl, hcfg⟩

theorem resetWith_input_toNat (cfg : Config) {codes : List Nat} (hcodes : ∀ c ∈ codes, c ≤ 255) :
    (resetWith cfg codes).input.map BitVec.toNat = codes := by
  have hcode : ∀ c ∈ codes, (BitVec.toNat ∘ BitVec.ofNat 8) c = c := fun c hc =>
    Nat.mod_eq_of_lt (Nat.lt_succ_of_le (hcodes c hc))
  rw [resetWith, List.map_map, List.map_congr_left hcode, List.map_id']

/-- An admissible launch is answered. -/
theorem launch_admissible {cfg : Config} {codes : List Nat} {img : Image} (hcfg : cfg.wf = true)
    (hcodes : inputCodesFit codes = true) (himg : img.admissible = true) : launch cfg codes img =
      .next (((resetWith cfg codes).loadWords img.startAddress img.words).setPc pcStart) := by
  simp [launch, hcfg, hcodes, himg, resetWith]

/-! The fetch at the status address (R344). -/

/-- The zero word is a never-taken branch (30_encoding.md R128). -/
theorem exec_decode_zero (s : State) : exec (decode 0x0000#16) s = .next s := by
  have hnever : branchTaken 0b000#3 s.cond = false := by simp [branchTaken]
  exact (execBr_eq_setPc 0b000#3 0#9 s).trans (by rw [hnever]; rfl)

/-- The READY status word is an RTI (decisions D1 and D9). -/
theorem exec_decode_kbsrReady (s : State) : exec (decode kbsrReady) s = .next (s.raise (.decodeFault 8#4)) := by
  rw [decode_of_opcode_rti rfl]
  rfl

/-- A step at the status address executes the word that the poll returns, in the state that the poll leaves. -/
theorem step_at_status {s : State} (hrun : s.run = .running) (hpc : s.pc = s.cfg.kbsrAddr) :
    step s = exec (decode (s.readWord s.cfg.kbsrAddr))
      ((s.afterRead s.cfg.kbsrAddr).setPc (s.pc + 1#16)) := by
  rw [step_running hrun, State.fetchWord, State.afterFetch, hpc, add16]

end Sys2Proof.Machine

open Sys2Proof Sys2Proof.Machine

/-- Settles O44: the poll returns 0x8000, an RTI, with a character left, and 0, a never-taken branch, with none. -/
theorem fetchAtTheStatusWord : Obligations.FetchAtTheStatusWord := by
  intro s hs hrun hpc
  obtain ⟨hready, hnotReady⟩ :=
    statusReadPollsTheKeyboard s hs.memCanonical (Config.wf_iff.mp hs.addressesDistinct)
  constructor
  · intro hleft
    obtain ⟨hword, hstatus, -, hcursor, -⟩ := hready _ (List.getElem?_eq_getElem hleft)
    have hstep := step_at_status hrun hpc
    rw [hword] at hstep
    exact ⟨_, hstep.trans (exec_decode_kbsrReady _), rfl, rfl, hcursor, rfl, hstatus⟩
  · intro hnone
    obtain ⟨hword, hstatus, hmem, hregs, -, -, ⟨hcursor, -⟩, ⟨hsame, -⟩, -⟩ := hnotReady hnone
    have hstep := step_at_status hrun hpc
    rw [hword] at hstep
    exact ⟨_, hstep.trans (exec_decode_zero _), hsame.trans hrun, rfl, hcursor, hregs, hstatus, hmem⟩

/-- Settles O55: the launch is answered; its words are where the load puts them, and its other fields are those of the
reset state with its parameters. -/
theorem launchPlacesTheImage : Obligations.LaunchPlacesTheImage := by
  intro cfg codes img hcfg hcodes himg
  obtain ⟨m, hload⟩ := State.loadWords_shape img.words (resetWith cfg codes) img.startAddress
  refine ⟨_, launch_admissible (Config.wf_iff.mpr hcfg) (inputCodesFit_iff.mpr hcodes)
    (Image.admissible_iff.mpr himg), fun _ => State.loadWords_peek_image rfl himg,
    fun _ => State.loadWords_peek_outside rfl himg, rfl, ?_⟩
  rw [hload]
  exact ⟨rfl, rfl, rfl, rfl, resetWith_input_toNat cfg hcodes, rfl⟩

/-- Settles O58: the reset state with its parameters meets the invariant, and the load and the initial PC keep it. -/
theorem invariantHoldsAtLaunch : Obligations.InvariantHoldsAtLaunch := by
  intro cfg codes img t h
  obtain ⟨hcfg, -, -, rfl⟩ := launch_next h
  exact ((resetWith_inv hcfg codes).loadWords img.words img.startAddress).setPc pcStart

/-- Settles O53: the fields of `State.reset`; its empty memory list reads as zero everywhere. -/
theorem resetValuesOfTheRules : Obligations.ResetValuesOfTheRules :=
  ⟨fun _ => rfl, rfl, rfl, rfl⟩

/-- Settles O56: the two checks before the image's pass, and the image's does not. -/
theorem launchRefusesAnImagePastTheEnd : Obligations.LaunchRefusesAnImagePastTheEnd := by
  intro cfg codes img hcfg hcodes hpast
  have himg : img.admissible = false := by
    rw [← Bool.not_eq_true, Image.admissible_iff]
    exact Nat.not_le.mpr hpast
  simp [launch, Config.wf_iff.mpr hcfg, inputCodesFit_iff.mpr hcodes, himg]

end
